-- ==== Sys2Proof/Word.lean ====
section
/-! DEFINITION. The word types of the core: bytes, 16-bit words, 12-bit addresses, register numbers. -/

namespace Sys2Proof

/-- A memory byte, a general register or a timer: 8 bits (00_scope.md R7). -/
abbrev Byte := BitVec 8

/-- The index register, the program counter and a stack entry: 16 bits (00_scope.md R7). -/
abbrev Word := BitVec 16

/-- The 16-bit instruction word (30_encoding.md R70). -/
abbrev Opcode := BitVec 16

/-- A 4-bit field of an opcode (30_encoding.md R71). -/
abbrev Nibble := BitVec 4

/-- The 12-bit address field `NNN` (30_encoding.md R73). -/
abbrev Addr12 := BitVec 12

/-- A register number 0..15, or a key number 0..15 (10_state.md R20, R34). -/
abbrev Reg := Fin 16

/-- Register 15, the flag register (10_state.md R22). -/
abbrev VF : Reg := 15

/-- Two bytes as a 16-bit word, high part first (00_scope.md R10, 20_memory.md R56). -/
abbrev concatBytes (hi lo : Byte) : Word := hi ++ lo

end Sys2Proof
end

