-- ==== Sys2Proof/Config.lean ====
section
/-! DEFINITION. What is fixed for one machine, and the value the spec leaves free. -/

namespace Sys2Proof.Config

/-- The default of the parameter FONT: 16 glyphs of five bytes (70_reset_and_hazards.md R201).
PRESUMED, unsafe: the spec marks these bytes as general knowledge (log entry 3); a claim about glyph
bytes takes the font as an argument instead (`Sys2Proof.Machine.initialise`). -/
def font : Vector Byte 80 := #v[
  0xF0, 0x90, 0x90, 0x90, 0xF0,
  0x20, 0x60, 0x20, 0x20, 0x70,
  0xF0, 0x10, 0xF0, 0x80, 0xF0,
  0xF0, 0x10, 0xF0, 0x10, 0xF0,
  0x90, 0x90, 0xF0, 0x10, 0x10,
  0xF0, 0x80, 0xF0, 0x10, 0xF0,
  0xF0, 0x80, 0xF0, 0x90, 0xF0,
  0xF0, 0x10, 0x20, 0x40, 0x40,
  0xF0, 0x90, 0xF0, 0x90, 0xF0,
  0xF0, 0x90, 0xF0, 0x10, 0xF0,
  0xF0, 0x90, 0xF0, 0x90, 0x90,
  0xE0, 0x90, 0xE0, 0x90, 0xE0,
  0xF0, 0x80, 0x80, 0x80, 0xF0,
  0xE0, 0x90, 0x90, 0x90, 0xE0,
  0xF0, 0x80, 0xF0, 0x80, 0xF0,
  0xF0, 0x80, 0xF0, 0x80, 0x80]

/-- FREE VALUE: the draw `random_byte()` of CXNN when the host passes none, by the index of the draw
(00_scope.md R8, R16; log entry 2). It has no body, so no proof can use a value of it. -/
opaque freeDraw : Nat → Byte

end Sys2Proof.Config
end

