-- ==== Sys2Proof/Syntax.lean ====
section
/-! DEFINITION. The instructions: one constructor per row of spec/opcode_table.json, in its order. -/

namespace Sys2Proof

/-- An instruction of the core; the operands are the fields X, Y, N, NN, NNN of 30_encoding.md R73. -/
inductive Instr where
  /-- `00E0` CLS (41_display.md R100). -/
  | cls
  /-- `00EE` RET (42_flow.md R110). -/
  | ret
  /-- `0NNN` SYS addr (30_encoding.md R77, 40_cycle.md R94). -/
  | sysAddr (nnn : Addr12)
  /-- `1NNN` JP addr (42_flow.md R111). -/
  | jpAddr (nnn : Addr12)
  /-- `2NNN` CALL addr (42_flow.md R112). -/
  | callAddr (nnn : Addr12)
  /-- `3XNN` SE Vx, byte (42_flow.md R113). -/
  | seVxByte (x : Reg) (nn : Byte)
  /-- `4XNN` SNE Vx, byte (42_flow.md R114). -/
  | sneVxByte (x : Reg) (nn : Byte)
  /-- `5XY0` SE Vx, Vy (42_flow.md R115). -/
  | seVxVy (x y : Reg)
  /-- `6XNN` LD Vx, byte (43_alu.md R131). -/
  | ldVxByte (x : Reg) (nn : Byte)
  /-- `7XNN` ADD Vx, byte (43_alu.md R132). -/
  | addVxByte (x : Reg) (nn : Byte)
  /-- `8XY0` LD Vx, Vy (43_alu.md R133). -/
  | ldVxVy (x y : Reg)
  /-- `8XY1` OR Vx, Vy (43_alu.md R134). -/
  | orVxVy (x y : Reg)
  /-- `8XY2` AND Vx, Vy (43_alu.md R135). -/
  | andVxVy (x y : Reg)
  /-- `8XY3` XOR Vx, Vy (43_alu.md R136). -/
  | xorVxVy (x y : Reg)
  /-- `8XY4` ADD Vx, Vy (43_alu.md R137). -/
  | addVxVy (x y : Reg)
  /-- `8XY5` SUB Vx, Vy (43_alu.md R138). -/
  | subVxVy (x y : Reg)
  /-- `8XY6` SHR Vx, Vy (43_alu.md R139); `y` is encoded and has no effect. -/
  | shrVxVy (x y : Reg)
  /-- `8XY7` SUBN Vx, Vy (43_alu.md R140). -/
  | subnVxVy (x y : Reg)
  /-- `8XYE` SHL Vx, Vy (43_alu.md R141); `y` is encoded and has no effect. -/
  | shlVxVy (x y : Reg)
  /-- `9XY0` SNE Vx, Vy (42_flow.md R116). -/
  | sneVxVy (x y : Reg)
  /-- `ANNN` LD I, addr (44_index_memory.md R150). -/
  | ldIAddr (nnn : Addr12)
  /-- `BNNN` JP V0, addr (42_flow.md R117). -/
  | jpV0Addr (nnn : Addr12)
  /-- `CXNN` RND Vx, byte (43_alu.md R142). -/
  | rndVxByte (x : Reg) (nn : Byte)
  /-- `DXYN` DRW Vx, Vy, nibble (41_display.md R101). -/
  | drwVxVyNibble (x y : Reg) (n : Nibble)
  /-- `EX9E` SKP Vx (45_keypad_timer.md R161). -/
  | skpVx (x : Reg)
  /-- `EXA1` SKNP Vx (45_keypad_timer.md R162). -/
  | sknpVx (x : Reg)
  /-- `FX07` LD Vx, DT (45_keypad_timer.md R164). -/
  | ldVxDT (x : Reg)
  /-- `FX0A` LD Vx, K (45_keypad_timer.md R163). -/
  | ldVxK (x : Reg)
  /-- `FX15` LD DT, Vx (45_keypad_timer.md R165). -/
  | ldDTVx (x : Reg)
  /-- `FX18` LD ST, Vx (45_keypad_timer.md R166). -/
  | ldSTVx (x : Reg)
  /-- `FX1E` ADD I, Vx (44_index_memory.md R151). -/
  | addIVx (x : Reg)
  /-- `FX29` LD F, Vx (44_index_memory.md R152). -/
  | ldFVx (x : Reg)
  /-- `FX33` LD B, Vx (44_index_memory.md R153). -/
  | ldBVx (x : Reg)
  /-- `FX55` LD [I], Vx (44_index_memory.md R154). -/
  | ldMemIVx (x : Reg)
  /-- `FX65` LD Vx, [I] (44_index_memory.md R155). -/
  | ldVxMemI (x : Reg)
  deriving DecidableEq, Repr

end Sys2Proof
end

