-- ==== Sys2Proof/Decode.lean ====
section
/-! DEFINITION. Decoding of opcodes (30_encoding.md R70 to R77), and the encoder (R72, R79). -/

namespace Sys2Proof

/-! ### The fields of an opcode (30_encoding.md R71) -/

/-- `T`, bits 15..12. -/
def fieldT (w : Opcode) : Nibble := w.extractLsb' 12 4

/-- `X`, bits 11..8, as a register number. -/
def fieldX (w : Opcode) : Reg := (w.extractLsb' 8 4).toFin

/-- `Y`, bits 7..4, as a register number. -/
def fieldY (w : Opcode) : Reg := (w.extractLsb' 4 4).toFin

/-- `N`, bits 3..0. -/
def fieldN (w : Opcode) : Nibble := w.extractLsb' 0 4

/-- `NN`, bits 7..0. -/
def fieldNN (w : Opcode) : Byte := w.extractLsb' 0 8

/-- `NNN`, bits 11..0. -/
def fieldNNN (w : Opcode) : Addr12 := w.extractLsb' 0 12

/-! ### Decoding -/

/-- The group of an opcode that no row of the table matches (30_encoding.md R76). Such a word is not
refused by the machine: it executes as an unknown opcode (40_cycle.md R94). -/
inductive UnknownOpcode where
  /-- 0x5XYN with N not 0. -/
  | group5
  /-- 0x8XYN with N in 8, 9, A, B, C, D, F. -/
  | group8
  /-- 0x9XYN with N not 0. -/
  | group9
  /-- 0xEXNN with NN neither 0x9E nor 0xA1. -/
  | groupE
  /-- 0xFXNN with NN none of the nine sub-opcodes. -/
  | groupF
  deriving DecidableEq, Repr

/-- Group 0: the whole opcode selects CLS and RET, every other word is SYS (30_encoding.md R74, R75). -/
def decodeGroup0 (w : Opcode) : Instr :=
  if w = 0x00E0#16 then .cls
  else if w = 0x00EE#16 then .ret
  else .sysAddr (fieldNNN w)

/-- Group 5: bits 3..0 must be 0 (30_encoding.md R74). -/
def decodeGroup5 (w : Opcode) : Except UnknownOpcode Instr :=
  if fieldN w = 0x0#4 then .ok (.seVxVy (fieldX w) (fieldY w)) else .error .group5

/-- Group 8: bits 3..0 select the operation (30_encoding.md R74). -/
def decodeGroup8 (w : Opcode) : Except UnknownOpcode Instr :=
  let x := fieldX w
  let y := fieldY w
  match fieldN w with
  | 0x0#4 => .ok (.ldVxVy x y)
  | 0x1#4 => .ok (.orVxVy x y)
  | 0x2#4 => .ok (.andVxVy x y)
  | 0x3#4 => .ok (.xorVxVy x y)
  | 0x4#4 => .ok (.addVxVy x y)
  | 0x5#4 => .ok (.subVxVy x y)
  | 0x6#4 => .ok (.shrVxVy x y)
  | 0x7#4 => .ok (.subnVxVy x y)
  | 0xE#4 => .ok (.shlVxVy x y)
  | _ => .error .group8

/-- Group 9: bits 3..0 must be 0 (30_encoding.md R74). -/
def decodeGroup9 (w : Opcode) : Except UnknownOpcode Instr :=
  if fieldN w = 0x0#4 then .ok (.sneVxVy (fieldX w) (fieldY w)) else .error .group9

/-- Group E: bits 7..0 select the operation (30_encoding.md R74). -/
def decodeGroupE (w : Opcode) : Except UnknownOpcode Instr :=
  let x := fieldX w
  match fieldNN w with
  | 0x9E#8 => .ok (.skpVx x)
  | 0xA1#8 => .ok (.sknpVx x)
  | _ => .error .groupE

/-- Group F: bits 7..0 select the operation (30_encoding.md R74). -/
def decodeGroupF (w : Opcode) : Except UnknownOpcode Instr :=
  let x := fieldX w
  match fieldNN w with
  | 0x07#8 => .ok (.ldVxDT x)
  | 0x0A#8 => .ok (.ldVxK x)
  | 0x15#8 => .ok (.ldDTVx x)
  | 0x18#8 => .ok (.ldSTVx x)
  | 0x1E#8 => .ok (.addIVx x)
  | 0x29#8 => .ok (.ldFVx x)
  | 0x33#8 => .ok (.ldBVx x)
  | 0x55#8 => .ok (.ldMemIVx x)
  | 0x65#8 => .ok (.ldVxMemI x)
  | _ => .error .groupF

/-- The instruction an opcode stands for, or its group of unknown opcodes (30_encoding.md R74; 40_cycle.md
R92). It is total and reads nothing but the opcode. The last arm is the nibble 0xF, the one value of four
bits that no arm before it names. -/
def decode (w : Opcode) : Except UnknownOpcode Instr :=
  match fieldT w with
  | 0x0#4 => .ok (decodeGroup0 w)
  | 0x1#4 => .ok (.jpAddr (fieldNNN w))
  | 0x2#4 => .ok (.callAddr (fieldNNN w))
  | 0x3#4 => .ok (.seVxByte (fieldX w) (fieldNN w))
  | 0x4#4 => .ok (.sneVxByte (fieldX w) (fieldNN w))
  | 0x5#4 => decodeGroup5 w
  | 0x6#4 => .ok (.ldVxByte (fieldX w) (fieldNN w))
  | 0x7#4 => .ok (.addVxByte (fieldX w) (fieldNN w))
  | 0x8#4 => decodeGroup8 w
  | 0x9#4 => decodeGroup9 w
  | 0xA#4 => .ok (.ldIAddr (fieldNNN w))
  | 0xB#4 => .ok (.jpV0Addr (fieldNNN w))
  | 0xC#4 => .ok (.rndVxByte (fieldX w) (fieldNN w))
  | 0xD#4 => .ok (.drwVxVyNibble (fieldX w) (fieldY w) (fieldN w))
  | 0xE#4 => decodeGroupE w
  | _ => decodeGroupF w

/-- Why a sequence of bytes gives no instruction. -/
inductive DecodeReject where
  /-- Fewer than the two bytes every instruction occupies (30_encoding.md R70). -/
  | truncated
  /-- The two bytes are an unknown opcode (30_encoding.md R76). -/
  | unknown (group : UnknownOpcode)
  deriving DecidableEq, Repr

/-- Decode the first two bytes, high byte first, and return the bytes after them (30_encoding.md R70,
20_memory.md R56). -/
def decodeBytes : List Byte → Except DecodeReject (Instr × List Byte)
  | hi :: lo :: rest =>
    match decode (concatBytes hi lo) with
    | .ok i => .ok (i, rest)
    | .error g => .error (.unknown g)
  | [_] => .error .truncated
  | [] => .error .truncated

/-! ### Encoding: the six formats (30_encoding.md R72) -/

/-- Format `ADDR`. -/
def formatAddr (t : Nibble) (nnn : Addr12) : Opcode := t ++ nnn

/-- Formats `REG_IMM` and `REG_SUB`: the low byte is the immediate or the sub-opcode. -/
def formatRegByte (t : Nibble) (x : Reg) (nn : Byte) : Opcode := t ++ ((BitVec.ofFin x : Nibble) ++ nn)

/-- Formats `REG_REG` and `DRAW`: the low nibble is the sub-opcode or the row count. -/
def formatRegReg (t : Nibble) (x y : Reg) (n : Nibble) : Opcode :=
  t ++ ((BitVec.ofFin x : Nibble) ++ ((BitVec.ofFin y : Nibble) ++ n))

/-- The opcode of an instruction: its pattern with the operands put in (30_encoding.md R72, R79). -/
def encode : Instr → Opcode
  | .cls => 0x00E0#16
  | .ret => 0x00EE#16
  | .sysAddr nnn => formatAddr 0x0#4 nnn
  | .jpAddr nnn => formatAddr 0x1#4 nnn
  | .callAddr nnn => formatAddr 0x2#4 nnn
  | .seVxByte x nn => formatRegByte 0x3#4 x nn
  | .sneVxByte x nn => formatRegByte 0x4#4 x nn
  | .seVxVy x y => formatRegReg 0x5#4 x y 0x0#4
  | .ldVxByte x nn => formatRegByte 0x6#4 x nn
  | .addVxByte x nn => formatRegByte 0x7#4 x nn
  | .ldVxVy x y => formatRegReg 0x8#4 x y 0x0#4
  | .orVxVy x y => formatRegReg 0x8#4 x y 0x1#4
  | .andVxVy x y => formatRegReg 0x8#4 x y 0x2#4
  | .xorVxVy x y => formatRegReg 0x8#4 x y 0x3#4
  | .addVxVy x y => formatRegReg 0x8#4 x y 0x4#4
  | .subVxVy x y => formatRegReg 0x8#4 x y 0x5#4
  | .shrVxVy x y => formatRegReg 0x8#4 x y 0x6#4
  | .subnVxVy x y => formatRegReg 0x8#4 x y 0x7#4
  | .shlVxVy x y => formatRegReg 0x8#4 x y 0xE#4
  | .sneVxVy x y => formatRegReg 0x9#4 x y 0x0#4
  | .ldIAddr nnn => formatAddr 0xA#4 nnn
  | .jpV0Addr nnn => formatAddr 0xB#4 nnn
  | .rndVxByte x nn => formatRegByte 0xC#4 x nn
  | .drwVxVyNibble x y n => formatRegReg 0xD#4 x y n
  | .skpVx x => formatRegByte 0xE#4 x 0x9E#8
  | .sknpVx x => formatRegByte 0xE#4 x 0xA1#8
  | .ldVxDT x => formatRegByte 0xF#4 x 0x07#8
  | .ldVxK x => formatRegByte 0xF#4 x 0x0A#8
  | .ldDTVx x => formatRegByte 0xF#4 x 0x15#8
  | .ldSTVx x => formatRegByte 0xF#4 x 0x18#8
  | .addIVx x => formatRegByte 0xF#4 x 0x1E#8
  | .ldFVx x => formatRegByte 0xF#4 x 0x29#8
  | .ldBVx x => formatRegByte 0xF#4 x 0x33#8
  | .ldMemIVx x => formatRegByte 0xF#4 x 0x55#8
  | .ldVxMemI x => formatRegByte 0xF#4 x 0x65#8

/-- The two bytes of an opcode as memory holds them, high byte first (20_memory.md R56). -/
def opcodeBytes (w : Opcode) : List Byte := [w.extractLsb' 8 8, w.extractLsb' 0 8]

/-! ### The rows of spec/opcode_table.json, as masks and matches -/

/-- The `mask` and `match` columns of an instruction's row. -/
def rowOf : Instr → Opcode × Opcode
  | .cls => (0xFFFF#16, 0x00E0#16)
  | .ret => (0xFFFF#16, 0x00EE#16)
  | .sysAddr _ => (0xF000#16, 0x0000#16)
  | .jpAddr _ => (0xF000#16, 0x1000#16)
  | .callAddr _ => (0xF000#16, 0x2000#16)
  | .seVxByte _ _ => (0xF000#16, 0x3000#16)
  | .sneVxByte _ _ => (0xF000#16, 0x4000#16)
  | .seVxVy _ _ => (0xF00F#16, 0x5000#16)
  | .ldVxByte _ _ => (0xF000#16, 0x6000#16)
  | .addVxByte _ _ => (0xF000#16, 0x7000#16)
  | .ldVxVy _ _ => (0xF00F#16, 0x8000#16)
  | .orVxVy _ _ => (0xF00F#16, 0x8001#16)
  | .andVxVy _ _ => (0xF00F#16, 0x8002#16)
  | .xorVxVy _ _ => (0xF00F#16, 0x8003#16)
  | .addVxVy _ _ => (0xF00F#16, 0x8004#16)
  | .subVxVy _ _ => (0xF00F#16, 0x8005#16)
  | .shrVxVy _ _ => (0xF00F#16, 0x8006#16)
  | .subnVxVy _ _ => (0xF00F#16, 0x8007#16)
  | .shlVxVy _ _ => (0xF00F#16, 0x800E#16)
  | .sneVxVy _ _ => (0xF00F#16, 0x9000#16)
  | .ldIAddr _ => (0xF000#16, 0xA000#16)
  | .jpV0Addr _ => (0xF000#16, 0xB000#16)
  | .rndVxByte _ _ => (0xF000#16, 0xC000#16)
  | .drwVxVyNibble _ _ _ => (0xF000#16, 0xD000#16)
  | .skpVx _ => (0xF0FF#16, 0xE09E#16)
  | .sknpVx _ => (0xF0FF#16, 0xE0A1#16)
  | .ldVxDT _ => (0xF0FF#16, 0xF007#16)
  | .ldVxK _ => (0xF0FF#16, 0xF00A#16)
  | .ldDTVx _ => (0xF0FF#16, 0xF015#16)
  | .ldSTVx _ => (0xF0FF#16, 0xF018#16)
  | .addIVx _ => (0xF0FF#16, 0xF01E#16)
  | .ldFVx _ => (0xF0FF#16, 0xF029#16)
  | .ldBVx _ => (0xF0FF#16, 0xF033#16)
  | .ldMemIVx _ => (0xF0FF#16, 0xF055#16)
  | .ldVxMemI _ => (0xF0FF#16, 0xF065#16)

/-! ### The host's entry -/

/-- The instruction the decoder reads from a table word of `nbits` bits: the word's two bytes, high byte
first, with every bit at or above `nbits` zero. -/
def decodeTableWord (nbits w : Nat) : Option Instr :=
  match decodeBytes (opcodeBytes (BitVec.ofNat 16 (w % 2 ^ nbits))) with
  | .ok (i, _) => some i
  | .error _ => none

end Sys2Proof
end

