-- ==== Sys2Proof/Machine/State.lean ====
section
/-! DEFINITION. The state of the core as plain data (10_state.md R44), its value after `initialize`, and
the reasons a machine operation can stop. -/

namespace Sys2Proof.Machine

/-- The code of a fatal condition (60_exceptions.md R171; `fault.code` of 10_state.md R40). The values 5 to
7 of the 3-bit field are never written, so they have no name. -/
inductive FatalCode where
  /-- 0: no fatal condition, the reset value. -/
  | none
  /-- 1: 2NNN with `sp = 16`. -/
  | stackOverflow
  /-- 2: 00EE with `sp = 0`. -/
  | stackUnderflow
  /-- 3: a fetch or a data access above 0xFFF. -/
  | addressOutOfRange
  /-- 4: EX9E or EXA1 with `V[X]` above 0xF. -/
  | keyIndexOutOfRange
  deriving DecidableEq, Repr

/-- The fault record (10_state.md R40). -/
structure FaultRecord where
  /-- Which fatal condition was raised. -/
  code : FatalCode
  /-- The `pc` of the step that raised it. -/
  pc : Word
  /-- The faulting opcode, or NONE_OPCODE (0x10000) for a fetch fault. -/
  opcode : BitVec 17
  /-- The lowest out-of-range address, the key index, or 0. -/
  addr : Word
  deriving DecidableEq, Repr

/-- The 64 x 32 framebuffer (10_state.md R31): element `y` is row `y`, and bit `x` of it is pixel `(x, y)`. -/
abbrev Framebuffer := Vector (BitVec 64) 32

/-- Memory: the bytes that differ from the reset contents, addresses strictly rising (log entry 6). -/
abbrev Memory := List Host.Cell

/-- The state of the core: the tuple of 10_state.md R44, and the model's two fields for the draw input of
`step` (40_cycle.md R98; log entry 2). -/
structure State where
  /-- Memory 0x000..0xFFF (20_memory.md R50). -/
  mem : Memory
  /-- General registers V0..VF (10_state.md R20); register 15 is the flag VF (R22). -/
  V : Vector Byte 16
  /-- Index register (10_state.md R24). -/
  I : Word
  /-- Program counter (10_state.md R25). -/
  pc : Word
  /-- Stack pointer, the number of entries in use, 0..16 (10_state.md R28). -/
  sp : Fin 17
  /-- Call stack (10_state.md R28). -/
  stack : Vector Word 16
  /-- Framebuffer (10_state.md R31). -/
  fb : Framebuffer
  /-- Delay timer (10_state.md R33). -/
  delay : Byte
  /-- Sound timer (10_state.md R33). -/
  sound : Byte
  /-- Keypad state, true when pressed (10_state.md R34). -/
  key : Vector Bool 16
  /-- The core met a fatal condition (10_state.md R38). -/
  halted : Bool
  /-- The fault record (10_state.md R40). -/
  fault : FaultRecord
  /-- The model's own: the draw `r` the host passes to the next step, if it passes one (log entry 2). -/
  draw : Option Byte
  /-- The model's own: how many free draws were taken (log entry 2). -/
  drawCount : Nat
  deriving DecidableEq, Repr

/-- Why a machine stops. No step of the core does: a fatal condition is a next state with `halted` and the
fault record written (60_exceptions.md R174, log entry 1). -/
inductive Fault where
  /-- A step that ends halted, as `Sys2Proof.strictStep` of Safety.lean alone answers it: the view in which a
  FATAL step never counts as a good end of a run (93_implementation_defined.md U5). Safe: fewer runs. -/
  | fatal (record : FaultRecord)
  deriving DecidableEq, Repr

/-- Why an operation is declined. No step of the core is. -/
inductive Refusal where
  /-- An instruction without a meaning in the model. No arm of `exec` answers it. Safe. -/
  | notModelled (mnemonic : String)
  /-- Raised by `Sys2Proof.Machine.perform` for every operation but `initialize` on a core that was never
  initialised (70_reset_and_hazards.md R206). Safe: the spec gives that state no value. -/
  | uninitialised
  /-- Raised by `Sys2Proof.Machine.perform` for `set_key` with `k` above 15, which is no call of the interface
  (60_exceptions.md R188). Safe: the host must not make it. -/
  | invalidKey (k : Nat)
  deriving DecidableEq, Repr

/-- The state after `initialize` with the default FONT (10_state.md R43, 70_reset_and_hazards.md R200). Memory
lists nothing: an unlisted byte reads as its reset contents. `draw` and `drawCount` are a DESIGN CHOICE (log
entry 2). -/
def State.reset : State where
  mem := []
  V := Vector.replicate 16 0
  I := 0
  pc := 0x200
  sp := 0
  stack := Vector.replicate 16 0
  fb := Vector.replicate 32 0
  delay := 0
  sound := 0
  key := Vector.replicate 16 false
  halted := false
  fault := { code := .none, pc := 0, opcode := 0, addr := 0 }
  draw := none
  drawCount := 0

end Sys2Proof.Machine
end

