-- ==== Sys2Proof/Machine/Ops.lean ====
section
/-! DEFINITION. The named operations over memory, registers, stack, framebuffer and keypad, and the entry
into a fatal condition. -/

namespace Sys2Proof.Machine

/-! ### Memory (20_memory.md) -/

/-- What an address that memory does not list reads as: the contents after `initialize` (10_state.md R43),
FONT at 0x050..0x09F and 0 elsewhere. -/
def unlisted (a : Nat) : Byte :=
  if h : 0x050 ≤ a ∧ a < 0x0A0 then Config.font[a - 0x050] else 0

/-- `mem[a]` (00_scope.md R12). -/
def Memory.read : Memory → Nat → Byte
  | [], a => unlisted a
  | (k, v) :: m, a => if k = a then v else Memory.read m a

/-- Put a byte before `m`, unless it is what the address reads as unlisted. -/
def Memory.cons (a : Nat) (v : Byte) (m : Memory) : Memory :=
  if v = unlisted a then m else (a, v) :: m

/-- `mem[a] <- v` (00_scope.md R12), in the canonical form. -/
def Memory.write : Memory → Nat → Byte → Memory
  | [], a, v => Memory.cons a v []
  | (k, w) :: m, a, v =>
    if a < k then Memory.cons a v ((k, w) :: m)
    else if a = k then Memory.cons a v m
    else (k, w) :: Memory.write m a v

/-- Write the bytes at `a`, `a + 1`, … in increasing address order (20_memory.md R59). -/
def Memory.writeBlock (m : Memory) (a : Nat) : List Byte → Memory
  | [] => m
  | v :: vs => Memory.writeBlock (m.write a v) (a + 1) vs

/-- The canonical form from address `lo` on: addresses strictly rising and below 0x1000, no entry equal to
what its address reads as unlisted. -/
def Memory.wfFrom : Nat → Memory → Bool
  | _, [] => true
  | lo, (k, v) :: m => decide (lo ≤ k) && decide (k < 0x1000) && (v != unlisted k) && Memory.wfFrom (k + 1) m

/-- Memory is in its canonical form (log entry 6). -/
def Memory.wf (m : Memory) : Bool := Memory.wfFrom 0 m

/-- `CheckRange(a, n)` passes: all of `a, …, a + n - 1` lie in 0x000..0xFFF (00_scope.md R13). -/
def inRange (a n : Nat) : Bool := n == 0 || decide (a + n - 1 ≤ 0xFFF)

/-- The address `CheckRange(a, n)` reports: the lowest one outside memory, `max(a, 0x1000)` (00_scope.md R13). -/
def firstOutOfRange (a : Nat) : Word := BitVec.ofNat 16 (max a 0x1000)

/-! ### General registers, I and pc (10_state.md R20, R24, R25) -/

/-- `V[x]`. -/
def State.getV (s : State) (x : Reg) : Byte := s.V[x]

/-- `V[x] <- v`. -/
def State.setV (s : State) (x : Reg) (v : Byte) : State := { s with V := s.V.set x v }

/-- `V[k] <- bytes k` for `k` in 0..x, the other registers as they are (44_index_memory.md R155). -/
def State.setVUpTo (s : State) (x : Reg) (bytes : Nat → Byte) : State :=
  { s with V := Vector.ofFn fun k : Fin 16 => if k ≤ x then bytes k else s.V[k] }

/-- `V[0]..V[x]` in order (44_index_memory.md R154). -/
def State.getVUpTo (s : State) (x : Reg) : List Byte := s.V.toList.take (x.val + 1)

/-- `I <- v`. -/
def State.setI (s : State) (v : Word) : State := { s with I := v }

/-- `pc <- v`. -/
def State.setPc (s : State) (v : Word) : State := { s with pc := v }

/-- `pc <- (pc + 2) mod 2^16` (40_cycle.md R96). -/
def State.advance (s : State) : State := s.setPc (s.pc + 2)

/-- A skip (42_flow.md): `pc + 4` if the condition holds, else `pc + 2` (40_cycle.md R96). -/
def State.skipIf (s : State) (c : Bool) : State := if c then s.setPc (s.pc + 4) else s.setPc (s.pc + 2)

/-- `mem` with the bytes written from `a` on. -/
def State.storeBytes (s : State) (a : Nat) (bs : List Byte) : State :=
  { s with mem := Memory.writeBlock s.mem a bs }

/-! ### Timers (10_state.md R33) -/

/-- `delay <- v`. -/
def State.setDelay (s : State) (v : Byte) : State := { s with delay := v }

/-- `sound <- v`. -/
def State.setSound (s : State) (v : Byte) : State := { s with sound := v }

/-! ### Call stack (10_state.md R28 to R30) -/

/-- `Push(v)`; none when `sp = 16`, where it raises STACK_OVERFLOW (10_state.md R29). -/
def State.push (s : State) (v : Word) : Option State :=
  if h : s.sp.val < 16 then
    some { s with stack := s.stack.set s.sp.val v, sp := ⟨s.sp.val + 1, by omega⟩ }
  else none

/-- `Pop()`; none when `sp = 0`, where it raises STACK_UNDERFLOW. The popped entry keeps its value (10_state.md
R30). -/
def State.pop (s : State) : Option (Word × State) :=
  if s.sp.val = 0 then none
  else some (s.stack[s.sp.val - 1], { s with sp := ⟨s.sp.val - 1, by omega⟩ })

/-! ### Framebuffer (10_state.md R31, R32) -/

/-- The column a coordinate addresses, `x mod 64` (41_display.md R103). -/
def wrapX (x : Nat) : Fin 64 := ⟨x % 64, Nat.mod_lt _ (by omega)⟩

/-- The row a coordinate addresses, `y mod 32` (41_display.md R103). -/
def wrapY (y : Nat) : Fin 32 := ⟨y % 32, Nat.mod_lt _ (by omega)⟩

/-- `fb[y][x]`. -/
def pixel (fb : Framebuffer) (x : Fin 64) (y : Fin 32) : Bool := fb[y].getLsbD x

/-- `fb[y][x] <- fb[y][x] ^ 1`. -/
def togglePixel (fb : Framebuffer) (x : Fin 64) (y : Fin 32) : Framebuffer :=
  fb.set y (fb[y] ^^^ (1#64 <<< x.val))

/-- Every pixel clear (41_display.md R100). -/
def clearFramebuffer : Framebuffer := Vector.replicate 32 0

/-- `fb <- f`. -/
def State.setFb (s : State) (f : Framebuffer) : State := { s with fb := f }

/-- A framebuffer being drawn on, with the collision flag so far (41_display.md R101). -/
abbrev Drawing := Framebuffer × Bool

/-- One set sprite bit at a pixel: collide if the pixel was set, then toggle it (41_display.md R101). -/
def plot (d : Drawing) (x : Fin 64) (y : Fin 32) : Drawing :=
  (togglePixel d.1 x y, d.2 || pixel d.1 x y)

/-- Bit `7 - col` of a sprite byte (41_display.md R101). -/
def spriteBit (b : Byte) (col : Nat) : Bool := b.getLsbD (7 - col)

/-- The inner loop of DXYN: the eight columns of one sprite row (41_display.md R101). -/
def drawRow (x0 y : Nat) (b : Byte) (d : Drawing) : Drawing :=
  (List.range 8).foldl
    (fun d col => if spriteBit b col then plot d (wrapX (x0 + col)) (wrapY y) else d) d

/-- The outer loop of DXYN: `n` sprite rows read from `base` on, the collision flag starting at 0 (41_display.md
R101). -/
def drawSprite (m : Memory) (base x0 y0 n : Nat) (fb : Framebuffer) : Drawing :=
  (List.range n).foldl (fun d row => drawRow x0 (y0 + row) (m.read (base + row)) d) (fb, false)

/-! ### Keypad (10_state.md R34) -/

/-- The least pressed key, if any key is pressed (45_keypad_timer.md R163). -/
def State.leastKey (s : State) : Option Reg := (List.finRange 16).find? fun k => s.key[k]

/-! ### The draw of CXNN (00_scope.md R16; log entry 2) -/

/-- `Random()`: the draw the host passed, else a free value. -/
def State.random (s : State) : Byte :=
  match s.draw with
  | some r => r
  | none => Config.freeDraw s.drawCount

/-- The draw is used up: the next one is another. -/
def State.consumeDraw (s : State) : State := { s with draw := none, drawCount := s.drawCount + 1 }

/-! ### Fatal conditions (60_exceptions.md R172 to R174) -/

/-- `NONE_OPCODE`, recorded when the fetch itself faulted (10_state.md R40). -/
def noneOpcode : BitVec 17 := 0x10000#17

/-- `raise Fatal(code, addr)` in a step with opcode `op`: from the state before the step, only the fault record
and `halted` change (00_scope.md R14; 60_exceptions.md R174). -/
def State.raiseFatal (s : State) (op : BitVec 17) (code : FatalCode) (addr : Word) : State :=
  { s with halted := true, fault := { code := code, pc := s.pc, opcode := op, addr := addr } }

/-- A fatal condition of the instruction `i`: the recorded opcode is `i`'s own (60_exceptions.md R172; log entry 5). -/
def State.raiseIn (s : State) (i : Instr) (code : FatalCode) (addr : Word) : State :=
  s.raiseFatal ((encode i).setWidth 17) code addr

/-- The address fault of an instruction whose access starts at `base` (60_exceptions.md R171). -/
def State.raiseAddress (s : State) (i : Instr) (base : Nat) : State :=
  s.raiseIn i .addressOutOfRange (firstOutOfRange base)

/-- The address fault of a fetch (40_cycle.md R91). -/
def State.raiseFetch (s : State) : State :=
  s.raiseFatal noneOpcode .addressOutOfRange (firstOutOfRange s.pc.toNat)

/-! ### Fetch (40_cycle.md R91) -/

/-- The opcode at `pc`, high byte first; none when `pc + 1` lies above 0xFFF. -/
def State.fetch (s : State) : Option Opcode :=
  if inRange s.pc.toNat 2 then
    some (concatBytes (Memory.read s.mem s.pc.toNat) (Memory.read s.mem (s.pc.toNat + 1)))
  else none

/-- The effect of an unknown opcode: `pc + 2` and nothing else (40_cycle.md R94). -/
def State.skipUnknown (s : State) : State := s.setPc (s.pc + 2)

/-- `s` with an opcode stored where the next step fetches it. The fetch needs a core that is not halted and a
`pc` of at most 0xFFE: where they do not hold they are set, `pc` to 0x200 (log entry 12). -/
def State.placeOpcode (s : State) (w : Opcode) : State :=
  let pc : Word := if inRange s.pc.toNat 2 then s.pc else 0x200
  { s with mem := Memory.writeBlock s.mem pc.toNat (opcodeBytes w), pc := pc, halted := false }

end Sys2Proof.Machine
end

