-- ==== Sys2Proof/Machine/Flags.lean ====
section
/-! DEFINITION. The values of the flag VF (10_state.md R23), and the order in which result and flag are written. -/

namespace Sys2Proof.Machine

/-- A condition as the flag value 1 or 0 (10_state.md R23). -/
def flagOf (c : Bool) : Byte := if c then 1 else 0

/-- The carry of 8XY4: 1 iff the exact sum is above 255 (43_alu.md R137). -/
def carryFlag (a b : Byte) : Byte := flagOf (decide (a.toNat + b.toNat > 255))

/-- The not-borrow of `a - b` in 8XY5 and 8XY7: 1 iff `a ≥ b` (43_alu.md R138, R140). -/
def notBorrowFlag (a b : Byte) : Byte := flagOf (decide (a.toNat ≥ b.toNat))

/-- The bit 8XY6 shifts out, bit 0 (43_alu.md R139). -/
def shiftedOutRight (a : Byte) : Byte := flagOf (a.getLsbD 0)

/-- The bit 8XYE shifts out, bit 7 (43_alu.md R141). -/
def shiftedOutLeft (a : Byte) : Byte := flagOf (a.getLsbD 7)

/-- Write the result to `V[x]` first and the flag to `V[F]` last (43_alu.md R130). -/
def State.setResultAndFlag (s : State) (x : Reg) (result flag : Byte) : State :=
  (s.setV x result).setV VF flag

end Sys2Proof.Machine
end

