-- ==== Sys2Proof/Machine/Operands.lean ====
section
/-! DEFINITION. The operand forms: immediates, addresses, key numbers, decimal digits (30_encoding.md R73). -/

namespace Sys2Proof.Machine

/-- `zext_16(NNN)`: an address field as a 16-bit value (30_encoding.md R73). -/
def zextAddr (nnn : Addr12) : Word := nnn.setWidth 16

/-- A register value as a 16-bit value (00_scope.md R10). -/
def zextByte (v : Byte) : Word := v.setWidth 16

/-- The target of BNNN, `NNN + V[0]` (42_flow.md R117). -/
def computedTarget (s : State) (nnn : Addr12) : Word := zextAddr nnn + zextByte (s.getV 0)

/-- The return address a call pushes, `(pc + 2) mod 2^16` (42_flow.md R112). -/
def returnAddress (s : State) : Word := s.pc + 2

/-- The address `I + k` as an exact natural number (20_memory.md R51). -/
def indexed (s : State) (k : Nat) : Nat := s.I.toNat + k

/-- The address of the font glyph of a register value, `0x050 + v * 5` (44_index_memory.md R152). -/
def glyphAddress (v : Byte) : Word := BitVec.ofNat 16 (0x050 + v.toNat * 5)

/-- The hundreds, tens and ones of a register value (44_index_memory.md R153). -/
def decimalDigits (v : Byte) : List Byte :=
  [BitVec.ofNat 8 (v.toNat / 100), BitVec.ofNat 8 (v.toNat / 10 % 10), BitVec.ofNat 8 (v.toNat % 10)]

/-- `KeyIndex(v)`; none above 0xF, where it raises KEY_INDEX_OUT_OF_RANGE (45_keypad_timer.md R160). -/
def keyIndex (v : Byte) : Option Reg :=
  if h : v.toNat < 16 then some ⟨v.toNat, h⟩ else none

end Sys2Proof.Machine
end

