-- ==== Sys2Proof/Machine/Alu.lean ====
section
/-! DEFINITION. The register and arithmetic instructions (43_alu.md). Sums and differences of bytes are modulo 256. -/

namespace Sys2Proof.Machine

/-- `6XNN` LD Vx, byte (43_alu.md R131). -/
def execLdVxByte (x : Reg) (nn : Byte) (s : State) : Host.Outcome State Fault Refusal :=
  .next (s.setV x nn).advance

/-- `7XNN` ADD Vx, byte: no flag (43_alu.md R132). -/
def execAddVxByte (x : Reg) (nn : Byte) (s : State) : Host.Outcome State Fault Refusal :=
  .next (s.setV x (s.getV x + nn)).advance

/-- `8XY0` LD Vx, Vy (43_alu.md R133). -/
def execLdVxVy (x y : Reg) (s : State) : Host.Outcome State Fault Refusal :=
  .next (s.setV x (s.getV y)).advance

/-- `8XY1` OR Vx, Vy (43_alu.md R134). -/
def execOrVxVy (x y : Reg) (s : State) : Host.Outcome State Fault Refusal :=
  .next (s.setV x (s.getV x ||| s.getV y)).advance

/-- `8XY2` AND Vx, Vy (43_alu.md R135). -/
def execAndVxVy (x y : Reg) (s : State) : Host.Outcome State Fault Refusal :=
  .next (s.setV x (s.getV x &&& s.getV y)).advance

/-- `8XY3` XOR Vx, Vy (43_alu.md R136). -/
def execXorVxVy (x y : Reg) (s : State) : Host.Outcome State Fault Refusal :=
  .next (s.setV x (s.getV x ^^^ s.getV y)).advance

/-- `8XY4` ADD Vx, Vy: VF is the carry (43_alu.md R137). -/
def execAddVxVy (x y : Reg) (s : State) : Host.Outcome State Fault Refusal :=
  .next (s.setResultAndFlag x (s.getV x + s.getV y) (carryFlag (s.getV x) (s.getV y))).advance

/-- `8XY5` SUB Vx, Vy: VF is 1 when nothing is borrowed (43_alu.md R138). -/
def execSubVxVy (x y : Reg) (s : State) : Host.Outcome State Fault Refusal :=
  .next (s.setResultAndFlag x (s.getV x - s.getV y) (notBorrowFlag (s.getV x) (s.getV y))).advance

/-- `8XY6` SHR Vx, Vy: `V[X]` is shifted, `Y` has no effect (43_alu.md R139). -/
def execShrVxVy (x _y : Reg) (s : State) : Host.Outcome State Fault Refusal :=
  .next (s.setResultAndFlag x (s.getV x >>> 1) (shiftedOutRight (s.getV x))).advance

/-- `8XY7` SUBN Vx, Vy (43_alu.md R140). -/
def execSubnVxVy (x y : Reg) (s : State) : Host.Outcome State Fault Refusal :=
  .next (s.setResultAndFlag x (s.getV y - s.getV x) (notBorrowFlag (s.getV y) (s.getV x))).advance

/-- `8XYE` SHL Vx, Vy: `V[X]` is shifted, `Y` has no effect (43_alu.md R141). -/
def execShlVxVy (x _y : Reg) (s : State) : Host.Outcome State Fault Refusal :=
  .next (s.setResultAndFlag x (s.getV x <<< 1) (shiftedOutLeft (s.getV x))).advance

/-- `CXNN` RND Vx, byte (43_alu.md R142); the draw is used up (log entry 2). -/
def execRndVxByte (x : Reg) (nn : Byte) (s : State) : Host.Outcome State Fault Refusal :=
  .next ((s.setV x (s.random &&& nn)).consumeDraw).advance

end Sys2Proof.Machine
end

