-- ==== Sys2Proof/Machine/Display.lean ====
section
/-! DEFINITION. The display instructions 00E0 and DXYN (41_display.md). -/

namespace Sys2Proof.Machine

/-- `00E0` CLS (41_display.md R100). -/
def execCls (s : State) : Host.Outcome State Fault Refusal :=
  .next (s.setFb clearFramebuffer).advance

/-- `DXYN` DRW Vx, Vy, nibble (41_display.md R101): the coordinates are read before VF is written, and the whole
range of sprite bytes is checked before anything is. -/
def execDrwVxVyNibble (x y : Reg) (n : Nibble) (s : State) : Host.Outcome State Fault Refusal :=
  if inRange (indexed s 0) n.toNat then
    let d := drawSprite s.mem (indexed s 0) (s.getV x).toNat (s.getV y).toNat n.toNat s.fb
    .next ((s.setFb d.1).setV VF (flagOf d.2)).advance
  else .next (s.raiseAddress (.drwVxVyNibble x y n) (indexed s 0))

end Sys2Proof.Machine
end

