-- ==== Sys2Proof/Machine/Flow.lean ====
section
/-! DEFINITION. The control-flow instructions (42_flow.md), and 0NNN, which is an unknown opcode (40_cycle.md R94). -/

namespace Sys2Proof.Machine

/-- `00EE` RET (42_flow.md R110). -/
def execRet (s : State) : Host.Outcome State Fault Refusal :=
  match s.pop with
  | some (v, t) => .next (t.setPc v)
  | none => .next (s.raiseIn .ret .stackUnderflow 0)

/-- `0NNN` SYS addr: an unknown opcode (30_encoding.md R77, 40_cycle.md R94). -/
def execSysAddr (_nnn : Addr12) (s : State) : Host.Outcome State Fault Refusal :=
  .next s.skipUnknown

/-- `1NNN` JP addr (42_flow.md R111). -/
def execJpAddr (nnn : Addr12) (s : State) : Host.Outcome State Fault Refusal :=
  .next (s.setPc (zextAddr nnn))

/-- `2NNN` CALL addr (42_flow.md R112). -/
def execCallAddr (nnn : Addr12) (s : State) : Host.Outcome State Fault Refusal :=
  match s.push (returnAddress s) with
  | some t => .next (t.setPc (zextAddr nnn))
  | none => .next (s.raiseIn (.callAddr nnn) .stackOverflow 0)

/-- `3XNN` SE Vx, byte (42_flow.md R113). -/
def execSeVxByte (x : Reg) (nn : Byte) (s : State) : Host.Outcome State Fault Refusal :=
  .next (s.skipIf (s.getV x == nn))

/-- `4XNN` SNE Vx, byte (42_flow.md R114). -/
def execSneVxByte (x : Reg) (nn : Byte) (s : State) : Host.Outcome State Fault Refusal :=
  .next (s.skipIf (s.getV x != nn))

/-- `5XY0` SE Vx, Vy (42_flow.md R115). -/
def execSeVxVy (x y : Reg) (s : State) : Host.Outcome State Fault Refusal :=
  .next (s.skipIf (s.getV x == s.getV y))

/-- `9XY0` SNE Vx, Vy (42_flow.md R116). -/
def execSneVxVy (x y : Reg) (s : State) : Host.Outcome State Fault Refusal :=
  .next (s.skipIf (s.getV x != s.getV y))

/-- `BNNN` JP V0, addr (42_flow.md R117). -/
def execJpV0Addr (nnn : Addr12) (s : State) : Host.Outcome State Fault Refusal :=
  .next (s.setPc (computedTarget s nnn))

end Sys2Proof.Machine
end

