-- ==== Sys2Proof/Machine/IndexMemory.lean ====
section
/-! DEFINITION. The index-register and memory instructions (44_index_memory.md). -/

namespace Sys2Proof.Machine

/-- `ANNN` LD I, addr (44_index_memory.md R150). -/
def execLdIAddr (nnn : Addr12) (s : State) : Host.Outcome State Fault Refusal :=
  .next (s.setI (zextAddr nnn)).advance

/-- `FX1E` ADD I, Vx: modulo 2^16, no flag, no fault (44_index_memory.md R151). -/
def execAddIVx (x : Reg) (s : State) : Host.Outcome State Fault Refusal :=
  .next (s.setI (s.I + zextByte (s.getV x))).advance

/-- `FX29` LD F, Vx (44_index_memory.md R152). -/
def execLdFVx (x : Reg) (s : State) : Host.Outcome State Fault Refusal :=
  .next (s.setI (glyphAddress (s.getV x))).advance

/-- `FX33` LD B, Vx (44_index_memory.md R153). -/
def execLdBVx (x : Reg) (s : State) : Host.Outcome State Fault Refusal :=
  if inRange (indexed s 0) 3 then
    .next (s.storeBytes (indexed s 0) (decimalDigits (s.getV x))).advance
  else .next (s.raiseAddress (.ldBVx x) (indexed s 0))

/-- `FX55` LD [I], Vx; `I` is unchanged (44_index_memory.md R154). -/
def execLdMemIVx (x : Reg) (s : State) : Host.Outcome State Fault Refusal :=
  if inRange (indexed s 0) (x.val + 1) then
    .next (s.storeBytes (indexed s 0) (s.getVUpTo x)).advance
  else .next (s.raiseAddress (.ldMemIVx x) (indexed s 0))

/-- `FX65` LD Vx, [I]; `I` is unchanged (44_index_memory.md R155). -/
def execLdVxMemI (x : Reg) (s : State) : Host.Outcome State Fault Refusal :=
  if inRange (indexed s 0) (x.val + 1) then
    .next (s.setVUpTo x fun k => Memory.read s.mem (indexed s k)).advance
  else .next (s.raiseAddress (.ldVxMemI x) (indexed s 0))

end Sys2Proof.Machine
end

