-- ==== Sys2Proof/Machine/KeypadTimer.lean ====
section
/-! DEFINITION. The keypad and timer instructions (45_keypad_timer.md). -/

namespace Sys2Proof.Machine

/-- The key-index fault of `i` (45_keypad_timer.md R160): `fault.addr` is the register value. -/
def State.raiseKey (s : State) (i : Instr) (v : Byte) : State :=
  s.raiseIn i .keyIndexOutOfRange (zextByte v)

/-- `EX9E` SKP Vx (45_keypad_timer.md R161). -/
def execSkpVx (x : Reg) (s : State) : Host.Outcome State Fault Refusal :=
  match keyIndex (s.getV x) with
  | some k => .next (s.skipIf s.key[k])
  | none => .next (s.raiseKey (.skpVx x) (s.getV x))

/-- `EXA1` SKNP Vx (45_keypad_timer.md R162). -/
def execSknpVx (x : Reg) (s : State) : Host.Outcome State Fault Refusal :=
  match keyIndex (s.getV x) with
  | some k => .next (s.skipIf (!s.key[k]))
  | none => .next (s.raiseKey (.sknpVx x) (s.getV x))

/-- `FX07` LD Vx, DT (45_keypad_timer.md R164). -/
def execLdVxDT (x : Reg) (s : State) : Host.Outcome State Fault Refusal :=
  .next (s.setV x s.delay).advance

/-- `FX0A` LD Vx, K: the least pressed key, or no change at all while none is pressed (45_keypad_timer.md R163). -/
def execLdVxK (x : Reg) (s : State) : Host.Outcome State Fault Refusal :=
  match s.leastKey with
  | some k => .next (s.setV x (BitVec.ofNat 8 k.val)).advance
  | none => .next s

/-- `FX15` LD DT, Vx (45_keypad_timer.md R165). -/
def execLdDTVx (x : Reg) (s : State) : Host.Outcome State Fault Refusal :=
  .next (s.setDelay (s.getV x)).advance

/-- `FX18` LD ST, Vx (45_keypad_timer.md R166). -/
def execLdSTVx (x : Reg) (s : State) : Host.Outcome State Fault Refusal :=
  .next (s.setSound (s.getV x)).advance

end Sys2Proof.Machine
end

