-- ==== Sys2Proof/Machine/Step.lean ====
section
/-! DEFINITION. One step of the core: halted check, fetch, decode, execute (40_cycle.md R90). -/

namespace Sys2Proof.Machine

/-- `step` (40_cycle.md R90). A halted core changes nothing (60_exceptions.md R175); a fetch fault enters the fatal
condition (R91, R174); an unknown opcode is skipped (R94). The draw is the one of the state (R98, log entry 2). -/
def step (s : State) : Host.Outcome State Fault Refusal :=
  if s.halted then .next s
  else
    match s.fetch with
    | none => .next s.raiseFetch
    | some w =>
      match decode w with
      | .ok i => exec i s
      | .error _ => .next s.skipUnknown

/-- `s` with a table word stored where `step` fetches its next instruction (log entries 7 and 12). -/
def State.withFetchWord (s : State) (nbits w : Nat) : State :=
  s.placeOpcode (BitVec.ofNat 16 (w % 2 ^ nbits))

end Sys2Proof.Machine
end

