-- ==== Sys2Proof/Machine/Result.lean ====
section
/-! DEFINITION. The result a step returns (40_cycle.md R95), read from the state before the step (log entry 4). -/

namespace Sys2Proof.Machine

/-- The result of a step (40_cycle.md R95). -/
inductive StepResult where
  /-- An instruction completed. -/
  | ok
  /-- FX0A ran with no key pressed. -/
  | waiting
  /-- An unknown opcode was reported, with its address (00_scope.md R15). -/
  | unknown (opcode : Opcode) (pc : Word)
  /-- A fatal condition was raised, or the core was halted already. -/
  | fatal (record : FaultRecord)
  deriving DecidableEq, Repr

/-- What the instruction `i`, decoded from `w`, reports from `s` when it raises no fatal condition: SYS is an unknown
opcode (30_encoding.md R77), FX0A waits while no key is pressed (45_keypad_timer.md R163). -/
def reportOf (i : Instr) (w : Opcode) (s : State) : StepResult :=
  match i with
  | .sysAddr _ => .unknown w s.pc
  | .ldVxK _ => if s.leastKey.isSome then .ok else .waiting
  | .cls | .ret | .jpAddr _ | .callAddr _ | .seVxByte _ _ | .sneVxByte _ _ | .seVxVy _ _ | .ldVxByte _ _
  | .addVxByte _ _ | .ldVxVy _ _ | .orVxVy _ _ | .andVxVy _ _ | .xorVxVy _ _ | .addVxVy _ _ | .subVxVy _ _
  | .shrVxVy _ _ | .subnVxVy _ _ | .shlVxVy _ _ | .sneVxVy _ _ | .ldIAddr _ | .jpV0Addr _ | .rndVxByte _ _
  | .drwVxVyNibble _ _ _ | .skpVx _ | .sknpVx _ | .ldVxDT _ | .ldDTVx _ | .ldSTVx _ | .addIVx _ | .ldFVx _
  | .ldBVx _ | .ldMemIVx _ | .ldVxMemI _ => .ok

/-- The result of the step that took `s` to `t` (40_cycle.md R90, R95): FATAL with the record when `t` is halted,
else what the opcode at `pc` reports. A step whose fetch faults ends halted, so the last arm never answers. -/
def resultOf (s t : State) : StepResult :=
  if t.halted then .fatal t.fault
  else
    match s.fetch with
    | some w =>
      match decode w with
      | .ok i => reportOf i w s
      | .error _ => .unknown w s.pc
    | none => .fatal t.fault

end Sys2Proof.Machine
end

