-- ==== Sys2Proof/Machine/HostOps.lean ====
section
/-! DEFINITION. The operations the host calls beside the plain step (00_scope.md R6). -/

namespace Sys2Proof.Machine

/-- `initialize` with a given FONT (70_reset_and_hazards.md R200, R201): whatever the state was, the state of
10_state.md R43. -/
def initialise (font : Vector Byte 80) : State :=
  { State.reset with mem := Memory.writeBlock [] 0x050 font.toList }

/-- What `load` answers (70_reset_and_hazards.md R203). -/
inductive LoadResult where
  /-- LOAD_OK. -/
  | ok
  /-- LOAD_ERROR(OVERSIZE). -/
  | oversize
  deriving DecidableEq, Repr

/-- `load(image)`: the image's bytes at 0x200, or no change when it is longer than 3584 bytes
(70_reset_and_hazards.md R203, R204). -/
def load (image : List Byte) (s : State) : LoadResult × State :=
  if image.length > 3584 then (.oversize, s) else (.ok, s.storeBytes 0x200 image)

/-- One timer, one tick (60_exceptions.md R185). -/
def countDown (v : Byte) : Byte := if v.toNat > 0 then v - 1 else v

/-- `tick` (60_exceptions.md R185). -/
def tick (s : State) : State := { s with delay := countDown s.delay, sound := countDown s.sound }

/-- `set_key(k, b)` (60_exceptions.md R188). -/
def setKey (k : Fin 16) (b : Bool) (s : State) : State := { s with key := s.key.set k b }

/-- `read_framebuffer`: the 2048 pixels in row-major order, pixel `(x, y)` at index `y * 64 + x`
(60_exceptions.md R190, 10_state.md R31). -/
def readFramebuffer (s : State) : List Bool :=
  (List.range 2048).map fun p => pixel s.fb (wrapX p) (wrapY (p / 64))

/-- `sound_active` (60_exceptions.md R187). -/
def soundActive (s : State) : Bool := decide (s.sound.toNat > 0)

/-- `read_fault`: `(halted, fault)` (60_exceptions.md R176). -/
def readFault (s : State) : Bool × FaultRecord := (s.halted, s.fault)

/-- The numeric code of a fatal condition (60_exceptions.md R171). -/
def codeNumber : FatalCode → BitVec 3
  | .none => 0
  | .stackOverflow => 1
  | .stackUnderflow => 2
  | .addressOutOfRange => 3
  | .keyIndexOutOfRange => 4

/-- The state with the draw input of the next step set (40_cycle.md R98, log entry 2). -/
def State.withDraw (s : State) (r : Option Byte) : State := { s with draw := r }

/-- `step(r)` (40_cycle.md R90): the step with the draw `r`; a step that does not execute CXNN ignores the draw
(R98), and no draw is left for a later step. -/
def stepWith (r : Byte) (s : State) : Host.Outcome State Fault Refusal :=
  match step (s.withDraw (some r)) with
  | .next t => .next (t.withDraw none)
  | .fault f => .fault f
  | .refused f => .refused f

/-- An operation of the host with its inputs (00_scope.md R6). -/
inductive HostOp where
  /-- `initialize`. -/
  | init
  /-- `load(image)`. -/
  | load (image : List Byte)
  /-- `step(r)`. -/
  | step (r : Byte)
  /-- `tick`. -/
  | tick
  /-- `set_key(k, b)`. -/
  | setKey (k : Nat) (b : Bool)
  /-- `read_framebuffer`. -/
  | readFramebuffer
  /-- `read_delay`. -/
  | readDelay
  /-- `read_sound`. -/
  | readSound
  /-- `read_fault`. -/
  | readFault
  deriving DecidableEq, Repr

/-- What an operation gives back (00_scope.md R6, 70_reset_and_hazards.md R211). -/
inductive HostAnswer where
  /-- Nothing: `initialize`, `tick`, `set_key`. -/
  | nothing
  /-- The result of `load`. -/
  | loaded (r : LoadResult)
  /-- The result of `step`. -/
  | stepped (r : StepResult)
  /-- The pixels. -/
  | pixels (p : List Bool)
  /-- The delay timer. -/
  | delay (v : Byte)
  /-- The sound timer and `sound_active`. -/
  | sound (v : Byte) (active : Bool)
  /-- `(halted, fault)`. -/
  | fault (halted : Bool) (record : FaultRecord)
  deriving DecidableEq, Repr

/-- An operation on an initialised core: the state after it and what it gives back (00_scope.md R6). -/
def performOn (font : Vector Byte 80) (op : HostOp) (s : State) :
    Host.Outcome (State × HostAnswer) Fault Refusal :=
  match op with
  | .init => .next (initialise font, .nothing)
  | .load image => .next ((load image s).2, .loaded (load image s).1)
  | .step r =>
    match stepWith r s with
    | .next t => .next (t, .stepped (resultOf s t))
    | .fault f => .fault f
    | .refused f => .refused f
  | .tick => .next (tick s, .nothing)
  | .setKey k b => if h : k < 16 then .next (setKey ⟨k, h⟩ b s, .nothing) else .refused (.invalidKey k)
  | .readFramebuffer => .next (s, .pixels (readFramebuffer s))
  | .readDelay => .next (s, .delay s.delay)
  | .readSound => .next (s, .sound s.sound (soundActive s))
  | .readFault => .next (s, .fault s.halted s.fault)

/-- An operation on a core that may not be initialised yet (none): every operation but `initialize` is refused
there (70_reset_and_hazards.md R206; log entry 8). -/
def perform (font : Vector Byte 80) (op : HostOp) (core : Option State) :
    Host.Outcome (State × HostAnswer) Fault Refusal :=
  match core with
  | some s => performOn font op s
  | none =>
    match op with
    | .init => .next (initialise font, .nothing)
    | .load _ | .step _ | .tick | .setKey _ _ | .readFramebuffer | .readDelay | .readSound | .readFault =>
      .refused .uninitialised

end Sys2Proof.Machine
end

