-- ==== Sys2Proof/Safety.lean ====
section
/-! DEFINITION. What counts as a good run, and the invariant of the core. -/

namespace Sys2Proof

open Machine

/-- The step seen by a claim about good runs: a step that ends halted is a fault, which no run continues past
(93_implementation_defined.md U5; log entry 1). -/
def strictStep (s : State) : Host.Outcome State Fault Refusal :=
  match step s with
  | .next t => if t.halted then .fault (.fatal t.fault) else .next t
  | .fault f => .fault f
  | .refused r => .refused r

/-- The addresses and index values a fault record may hold with its code (10_state.md R40). -/
def faultAddrOk (r : FaultRecord) : Bool :=
  match r.code with
  | .none => r.addr == 0
  | .stackOverflow => r.addr == 0
  | .stackUnderflow => r.addr == 0
  | .addressOutOfRange => decide (0x1000 ≤ r.addr.toNat)
  | .keyIndexOutOfRange => decide (0x10 ≤ r.addr.toNat) && decide (r.addr.toNat ≤ 0xFF)

/-- The invariant of an initialised core: memory is canonical (log entry 6); `pc` is at most 0x10FE and every stack
entry at most 0x1000 (10_state.md R27); the core is halted exactly when a fatal code is recorded (R38, R40), and
then `pc` is still the recorded one (60_exceptions.md R173); the record has the form of 10_state.md R40. -/
structure Inv (s : State) : Prop where
  memory : Memory.wf s.mem = true
  pcBound : s.pc.toNat ≤ 0x10FE
  stackBound : ∀ k : Fin 16, s.stack[k].toNat ≤ 0x1000
  haltedIff : s.halted = true ↔ s.fault.code ≠ .none
  haltedPc : s.halted = true → s.fault.pc = s.pc
  faultAddr : faultAddrOk s.fault = true
  faultNone : s.fault.code = .none → s.fault = { code := .none, pc := 0, opcode := 0, addr := 0 }
  faultOpcode : s.fault.opcode.toNat ≤ 0x10000

end Sys2Proof
end

