-- ==== Sys2Proof/Certificates/Slice0/Obligations.lean ====
section
/-! DEFINITION. The statements for the provers, from the numbered rules of spec/. A premise on memory,
`Memory.wf s.mem`, is part of the invariant `Inv`, which every step keeps (`StepKeepsInvariant`). -/

open Sys2Proof Sys2Proof.Machine

/-! ### Reset and the host's operations -/

/-- 70_reset_and_hazards.md R200: whatever FONT is and whatever the core was, `initialize` sets every piece of state to
its reset value, gives nothing back and cannot fail. -/
def Obligations.InitialiseSetsEveryField : Prop :=
  ∀ font : Vector Byte 80,
    (∀ core : Option State, perform font .init core = .next (initialise font, .nothing)) ∧
    (∀ k : Fin 80, Memory.read (initialise font).mem (0x050 + k.val) = font[k]) ∧
    (∀ a : Nat, (a < 0x050 ∨ 0x0A0 ≤ a) → Memory.read (initialise font).mem a = 0) ∧
    (∀ x : Reg, (initialise font).V[x] = 0) ∧
    (initialise font).I = 0 ∧ (initialise font).pc = 0x200 ∧ (initialise font).sp = 0 ∧
    (∀ k : Fin 16, (initialise font).stack[k] = 0) ∧
    (initialise font).delay = 0 ∧ (initialise font).sound = 0 ∧
    (∀ x y, pixel (initialise font).fb x y = false) ∧
    (∀ k : Reg, (initialise font).key[k] = false) ∧
    (initialise font).halted = false ∧
    (initialise font).fault = { code := .none, pc := 0, opcode := 0, addr := 0 }

/-- The state the host starts from is `initialize` with the default FONT (70_reset_and_hazards.md R200, R201): the
bytes of the default are PRESUMED (log entry 3), and no glyph byte is stated here. -/
def Obligations.ResetIsInitialiseWithDefaultFont : Prop :=
  initialise Config.font = State.reset ∧ State.reset.mem = [] ∧ State.reset.pc = 0x200 ∧
    State.reset.halted = false

/-- 60_exceptions.md R185: `tick` lowers each timer by one above zero and changes nothing else. -/
def Obligations.TickCountsDown : Prop :=
  ∀ (font : Vector Byte 80) (s : State),
    perform font .tick (some s) =
      .next ({ s with
        delay := if s.delay.toNat > 0 then BitVec.ofNat 8 (s.delay.toNat - 1) else s.delay
        sound := if s.sound.toNat > 0 then BitVec.ofNat 8 (s.sound.toNat - 1) else s.sound }, .nothing)

/-- 60_exceptions.md R188: `set_key(k, b)` with `k` in 0..15 sets that key and changes nothing else; another `k` is no
call of the interface and is refused (log entry 9). -/
def Obligations.SetKeySetsOneKey : Prop :=
  ∀ (font : Vector Byte 80) (s : State) (b : Bool),
    (∀ k : Fin 16, perform font (.setKey k.val b) (some s) =
      .next ({ s with key := s.key.set k b }, .nothing)) ∧
    (∀ k : Nat, 15 < k → perform font (.setKey k b) (some s) = .refused (.invalidKey k))

/-- 70_reset_and_hazards.md R203: `load` copies an image of at most 3584 bytes to 0x200 and changes nothing else;
a longer one is rejected without a change. -/
def Obligations.LoadCopiesImage : Prop :=
  ∀ (s : State) (image : List Byte), Memory.wf s.mem = true →
    (image.length ≤ 3584 →
      ∃ t, load image s = (.ok, t) ∧
        (∀ (k : Nat) (h : k < image.length), Memory.read t.mem (0x200 + k) = image[k]) ∧
        (∀ b : Nat, (b < 0x200 ∨ 0x200 + image.length ≤ b) → Memory.read t.mem b = Memory.read s.mem b) ∧
        t = { s with mem := t.mem }) ∧
    (3584 < image.length → load image s = (.oversize, s))

/-- 60_exceptions.md R177: no step and no operation but `initialize` leaves the halted state or changes the record, and
`initialize` clears both. -/
def Obligations.OnlyInitialiseLeavesHalted : Prop :=
  ∀ s : State, s.halted = true →
    (∀ t, step s = .next t → t.halted = true ∧ t.fault = s.fault) ∧
    (∀ (font : Vector Byte 80) (op : HostOp) (t : State) (a : HostAnswer),
      perform font op (some s) = .next (t, a) →
        (op ≠ .init → t.halted = true ∧ t.fault = s.fault) ∧
        (op = .init → t.halted = false ∧ t.fault = { code := .none, pc := 0, opcode := 0, addr := 0 }))

/-- 70_reset_and_hazards.md R206: on a core that was never initialised every operation but `initialize` is refused. -/
def Obligations.UninitialisedCoreRefusesAllButInitialise : Prop :=
  ∀ (font : Vector Byte 80) (op : HostOp),
    (op = .init → perform font op none = .next (initialise font, .nothing)) ∧
    (op ≠ .init → perform font op none = .refused .uninitialised)

/-! ### Encoding -/

/-- 30_encoding.md R71: each field is the opcode masked and then shifted. -/
def Obligations.FieldsAreMaskedAndShiftedBits : Prop :=
  ∀ w : Opcode,
    (fieldT w).toNat = ((w &&& 0xF000#16) >>> 12).toNat ∧
    (fieldX w).val = ((w &&& 0x0F00#16) >>> 8).toNat ∧
    (fieldY w).val = ((w &&& 0x00F0#16) >>> 4).toNat ∧
    (fieldN w).toNat = (w &&& 0x000F#16).toNat ∧
    (fieldNN w).toNat = (w &&& 0x00FF#16).toNat ∧
    (fieldNNN w).toNat = (w &&& 0x0FFF#16).toNat

/-- Every well-formed instruction is read back from its own word, with every operand (30_encoding.md R72, R79). -/
def Obligations.DecodeReadsBackEncode : Prop :=
  ∀ i : Instr, i.WellFormed → decode (encode i) = .ok i

/-- Every word the decoder reads is the word of the instruction it gives, and that instruction is well-formed, so no
bit of the word is dropped (30_encoding.md R72, R75). -/
def Obligations.EncodeRestoresDecodedWord : Prop :=
  ∀ (w : Opcode) (i : Instr), decode w = .ok i → encode i = w ∧ i.WellFormed

/-- 30_encoding.md R75: the decoder takes the first matching row in the order 00E0, 00EE, the rows with T not 0, SYS;
only SYS overlaps another row; a word no row matches is unknown. -/
def Obligations.DecodeTakesFirstMatchingRow : Prop :=
  decode 0x00E0#16 = .ok .cls ∧ decode 0x00EE#16 = .ok .ret ∧
  ∀ w : Opcode,
    (∀ i, decode w = .ok i →
      w &&& (rowOf i).1 = (rowOf i).2 ∧
      ∀ j : Instr, w &&& (rowOf j).1 = (rowOf j).2 → rowOf j = rowOf i ∨ rowOf j = (0xF000#16, 0x0000#16)) ∧
    ((∃ g, decode w = .error g) ↔ ∀ j : Instr, w &&& (rowOf j).1 ≠ (rowOf j).2)

/-- The unknown words that are no SYS word, group by group (30_encoding.md R76). -/
def Obligations.UnknownOpcodesByGroup : Prop :=
  ∀ w : Opcode,
    (decode w = .error .group5 ↔ fieldT w = 0x5#4 ∧ fieldN w ≠ 0#4) ∧
    (decode w = .error .group8 ↔
      fieldT w = 0x8#4 ∧ fieldN w ∈ [0x8#4, 0x9#4, 0xA#4, 0xB#4, 0xC#4, 0xD#4, 0xF#4]) ∧
    (decode w = .error .group9 ↔ fieldT w = 0x9#4 ∧ fieldN w ≠ 0#4) ∧
    (decode w = .error .groupE ↔ fieldT w = 0xE#4 ∧ fieldNN w ∉ [0x9E#8, 0xA1#8]) ∧
    (decode w = .error .groupF ↔
      fieldT w = 0xF#4 ∧
        fieldNN w ∉ [0x07#8, 0x0A#8, 0x15#8, 0x18#8, 0x1E#8, 0x29#8, 0x33#8, 0x55#8, 0x65#8]) ∧
    ((∃ nnn, decode w = .ok (.sysAddr nnn)) ↔ fieldT w = 0x0#4 ∧ w ≠ 0x00E0#16 ∧ w ≠ 0x00EE#16)

/-- A few words written out bit by bit from the table (30_encoding.md R72, R79). -/
def Obligations.DecodeOfWrittenOutWords : Prop :=
  decode 0b0110001100101010#16 = .ok (.ldVxByte 3 0x2A) ∧
  decode 0b1101000100100101#16 = .ok (.drwVxVyNibble 1 2 5) ∧
  decode 0b1111111101010101#16 = .ok (.ldMemIVx 15) ∧
  decode 0b0010001110100100#16 = .ok (.callAddr 0x3A4) ∧
  decode 0b1000101010111000#16 = .error .group8

/-! ### The step -/

/-- A step of a core that is not halted runs the instruction that the two bytes at `pc`, high byte first, decode to
(40_cycle.md R90, R91, R93). -/
def Obligations.StepRunsDecodedInstruction : Prop :=
  ∀ (s : State) (i : Instr), s.halted = false → s.pc.toNat ≤ 0xFFE →
    decode (BitVec.ofNat 16
      ((Memory.read s.mem s.pc.toNat).toNat * 256 + (Memory.read s.mem (s.pc.toNat + 1)).toNat)) = .ok i →
    step s = exec i s

/-- 40_cycle.md R91: the fetch checks `pc` and `pc + 1`; outside memory it raises ADDRESS_OUT_OF_RANGE with
NONE_OPCODE, else it gives the two bytes big-endian. -/
def Obligations.FetchChecksRangeThenReadsBigEndian : Prop :=
  ∀ s : State,
    (s.pc.toNat ≤ 0xFFE →
      s.fetch = some (BitVec.ofNat 16
        ((Memory.read s.mem s.pc.toNat).toNat * 256 + (Memory.read s.mem (s.pc.toNat + 1)).toNat))) ∧
    (0xFFE < s.pc.toNat → s.halted = false →
      step s = .next { s with
        halted := true
        fault := { code := .addressOutOfRange, pc := s.pc, opcode := 0x10000#17,
                   addr := BitVec.ofNat 16 (max s.pc.toNat 0x1000) } })

/-- 40_cycle.md R94: an unknown opcode, SYS among them, is reported with its address and writes only `pc + 2`. -/
def Obligations.UnknownOpcodeIsReportedAndSkipped : Prop :=
  (∀ (nnn : Addr12) (s : State), exec (.sysAddr nnn) s = .next { s with pc := s.pc + 2 }) ∧
  ∀ (s : State) (w : Opcode), s.halted = false → s.fetch = some w →
    ((∃ g, decode w = .error g) ∨ ∃ nnn, decode w = .ok (.sysAddr nnn)) →
      step s = .next { s with pc := s.pc + 2 } ∧
      resultOf s { s with pc := s.pc + 2 } = .unknown w s.pc

/-- 60_exceptions.md R175: a step of a halted core changes nothing and answers the stored record, whatever the draw;
the ticks, the keys, the load and the reads still work, with the values they give anywhere. The draw field after
`step(r)` is the model's own (log entry 2), and nothing is said of it. -/
def Obligations.HaltedStepChangesNothing : Prop :=
  ∀ s : State, s.halted = true →
    step s = .next s ∧ resultOf s s = .fatal s.fault ∧
    ∀ font : Vector Byte 80,
      (∀ r : Byte, ∃ t, perform font (.step r) (some s) = .next (t, .stepped (.fatal s.fault)) ∧
        t = { s with draw := t.draw }) ∧
      perform font .tick (some s) = .next (tick s, .nothing) ∧
      (∀ (k : Fin 16) (b : Bool), perform font (.setKey k.val b) (some s) = .next (setKey k b s, .nothing)) ∧
      (∀ image : List Byte, perform font (.load image) (some s) =
        .next ((load image s).2, .loaded (load image s).1)) ∧
      perform font .readFramebuffer (some s) = .next (s, .pixels (readFramebuffer s)) ∧
      perform font .readDelay (some s) = .next (s, .delay s.delay) ∧
      perform font .readSound (some s) = .next (s, .sound s.sound (soundActive s)) ∧
      perform font .readFault (some s) = .next (s, .fault true s.fault)

/-- 60_exceptions.md R176, R187, R190: the read operations change nothing and give the fault record, the timers, and the
2048 pixels in row-major order, which a FATAL step leaves as they were. -/
def Obligations.ReadOperationsChangeNothing : Prop :=
  ∀ (font : Vector Byte 80) (s : State),
    perform font .readFault (some s) = .next (s, .fault s.halted s.fault) ∧
    perform font .readDelay (some s) = .next (s, .delay s.delay) ∧
    (∃ b, perform font .readSound (some s) = .next (s, .sound s.sound b) ∧ (b = true ↔ 0 < s.sound.toNat)) ∧
    ∃ p, perform font .readFramebuffer (some s) = .next (s, .pixels p) ∧ p.length = 2048 ∧
      (∀ (x : Fin 64) (y : Fin 32), p[y.val * 64 + x.val]? = some (pixel s.fb x y)) ∧
      ∀ t, step s = .next t → t.halted = true → perform font .readFramebuffer (some t) = .next (t, .pixels p)

/-- No step faults or is refused, and no instruction is: a step always answers (40_cycle.md R95, "never throws"). That a
FATAL entry counts as an answer is the MODEL'S CHOICE (log entry 1, DESIGN CHOICE: a fatal condition is a next state,
where 93_implementation_defined.md U5 names it a fault). So this says only that nothing stops, and is no completion
statement of any instruction: those are the result statements below. -/
def Obligations.StepAndExecAlwaysAnswer : Prop :=
  (∀ s : State, ∃ t, step s = .next t) ∧ ∀ (i : Instr) (s : State), ∃ t, exec i s = .next t

/-- 40_cycle.md R95: which result a step returns, and what it writes with it. -/
def Obligations.StepResultIsOneOfFour : Prop :=
  ∀ s t : State, step s = .next t →
    (resultOf s t = .fatal t.fault ↔ t.halted = true) ∧
    (resultOf s t = .waiting ↔
      s.halted = false ∧ (∃ w x, s.fetch = some w ∧ decode w = .ok (.ldVxK x)) ∧ ∀ k : Reg, s.key[k] = false) ∧
    (resultOf s t = .waiting → t = s) ∧
    (∀ w p, resultOf s t = .unknown w p ↔
      s.halted = false ∧ s.fetch = some w ∧ p = s.pc ∧
        ((∃ g, decode w = .error g) ∨ ∃ nnn, decode w = .ok (.sysAddr nnn))) ∧
    (∀ w p, resultOf s t = .unknown w p → t = { s with pc := s.pc + 2 }) ∧
    (∀ r, resultOf s t = .fatal r → r = t.fault ∧ t = { s with halted := true, fault := t.fault }) ∧
    (resultOf s t = .ok ↔ t.halted = false ∧ ∃ w i, s.fetch = some w ∧ decode w = .ok i ∧ exec i s = .next t ∧
      (∀ nnn, i ≠ .sysAddr nnn) ∧ ((∃ x, i = .ldVxK x) → ∃ k : Reg, s.key[k] = true))

/-! ### Fatal conditions -/

/-- 60_exceptions.md R171: which conditions are fatal, with their codes and the recorded address; no other
instruction raises one. -/
def Obligations.FatalConditionsAreExactlyThese : Prop :=
  codeNumber .none = 0 ∧ codeNumber .stackOverflow = 1 ∧ codeNumber .stackUnderflow = 2 ∧
  codeNumber .addressOutOfRange = 3 ∧ codeNumber .keyIndexOutOfRange = 4 ∧
  (∀ s t : State, s.halted = false → s.fetch = none → step s = .next t →
    t.halted = true ∧ t.fault.code = .addressOutOfRange ∧ t.fault.addr.toNat = max s.pc.toNat 0x1000) ∧
  (∀ s : State, s.fetch = none ↔ 0xFFE < s.pc.toNat) ∧
  (∀ (s t : State) (w : Opcode) (g : UnknownOpcode), s.halted = false → s.fetch = some w → decode w = .error g →
    step s = .next t → t.halted = false) ∧
  ∀ (i : Instr) (s t : State), s.halted = false → exec i s = .next t →
    match i with
    | .callAddr _ => (t.halted = true ↔ s.sp = 16) ∧
        (t.halted = true → t.fault.code = .stackOverflow ∧ t.fault.addr = 0)
    | .ret => (t.halted = true ↔ s.sp = 0) ∧
        (t.halted = true → t.fault.code = .stackUnderflow ∧ t.fault.addr = 0)
    | .drwVxVyNibble _ _ n => (t.halted = true ↔ 1 ≤ n.toNat ∧ 0xFFF < s.I.toNat + n.toNat - 1) ∧
        (t.halted = true → t.fault.code = .addressOutOfRange ∧ t.fault.addr.toNat = max s.I.toNat 0x1000)
    | .ldBVx _ => (t.halted = true ↔ 0xFFF < s.I.toNat + 2) ∧
        (t.halted = true → t.fault.code = .addressOutOfRange ∧ t.fault.addr.toNat = max s.I.toNat 0x1000)
    | .ldMemIVx x => (t.halted = true ↔ 0xFFF < s.I.toNat + x.val) ∧
        (t.halted = true → t.fault.code = .addressOutOfRange ∧ t.fault.addr.toNat = max s.I.toNat 0x1000)
    | .ldVxMemI x => (t.halted = true ↔ 0xFFF < s.I.toNat + x.val) ∧
        (t.halted = true → t.fault.code = .addressOutOfRange ∧ t.fault.addr.toNat = max s.I.toNat 0x1000)
    | .skpVx x => (t.halted = true ↔ 0xF < s.V[x].toNat) ∧
        (t.halted = true → t.fault.code = .keyIndexOutOfRange ∧ t.fault.addr.toNat = s.V[x].toNat)
    | .sknpVx x => (t.halted = true ↔ 0xF < s.V[x].toNat) ∧
        (t.halted = true → t.fault.code = .keyIndexOutOfRange ∧ t.fault.addr.toNat = s.V[x].toNat)
    | _ => t.halted = false

/-- 60_exceptions.md R172, R173: after a step that raises, everything but `halted` and the record is as before the
step; the record holds the step's `pc` and its opcode, or NONE_OPCODE for a fetch fault. -/
def Obligations.FatalStepIsPrecise : Prop :=
  ∀ s t : State, s.halted = false → step s = .next t → t.halted = true →
    t = { s with halted := true, fault := t.fault } ∧ t.fault.pc = s.pc ∧
    (∀ w, s.fetch = some w → t.fault.opcode.toNat = w.toNat) ∧
    (s.fetch = none → t.fault.opcode = 0x10000#17)

/-! ### The invariant -/

/-- The invariant holds after `initialize`. -/
def Obligations.ResetMeetsInvariant : Prop := Inv State.reset

/-- Every step keeps the invariant: memory canonical, `pc` at most 0x10FE and stack entries at most 0x1000
(10_state.md R27), halted exactly with a recorded code (R38), the record of the form of R40. -/
def Obligations.StepKeepsInvariant : Prop :=
  ∀ s t : State, Inv s → step s = .next t → Inv t

/-- Every operation of the host keeps the invariant, and `initialize` establishes it for every FONT (00_scope.md R6). -/
def Obligations.HostOperationsKeepInvariant : Prop :=
  ∀ (font : Vector Byte 80) (op : HostOp) (s t : State) (a : HostAnswer),
    Inv s → perform font op (some s) = .next (t, a) → Inv t

/-- A good run of the strict view is a run of the core that never halts (93_implementation_defined.md U5; the view is
the model's choice, log entry 1). -/
def Obligations.StrictStepIsStepThatDoesNotHalt : Prop :=
  ∀ s t : State, (strictStep s = .next t ↔ step s = .next t ∧ t.halted = false) ∧
    (step s = .next t → t.halted = true → strictStep s = .fault (.fatal t.fault))

/-! ### Display -/

/-- 41_display.md R100: CLS clears every pixel and changes nothing else but `pc`. -/
def Obligations.ClsClearsFramebuffer : Prop :=
  (∀ w : Opcode, w &&& 0xFFFF#16 = 0x00E0#16 → decode w = .ok .cls) ∧
  ∀ s : State, ∃ t, exec .cls s = .next t ∧ (∀ x y, pixel t.fb x y = false) ∧
    t = { s with fb := t.fb, pc := s.pc + 2 }

/-- 41_display.md R101, R102, R103: DRW toggles the pixels under the set sprite bits with wrap-around, VF tells whether
one of them was set, and an address fault changes nothing. -/
def Obligations.DrwDrawsSpriteByXor : Prop :=
  (∀ w : Opcode, w &&& 0xF000#16 = 0xD000#16 →
    decode w = .ok (.drwVxVyNibble (fieldX w) (fieldY w) (fieldN w))) ∧
  ∀ (x y : Reg) (n : Nibble) (s : State),
    (n.toNat = 0 ∨ s.I.toNat + n.toNat - 1 ≤ 0xFFF →
      ∃ t, exec (.drwVxVyNibble x y n) s = .next t ∧
        (∀ (row col : Nat) (px : Fin 64) (py : Fin 32), row < n.toNat → col < 8 →
          px.val = (s.V[x].toNat + col) % 64 → py.val = (s.V[y].toNat + row) % 32 →
          pixel t.fb px py =
            (pixel s.fb px py ^^ (Memory.read s.mem (s.I.toNat + row)).getLsbD (7 - col))) ∧
        (∀ (px : Fin 64) (py : Fin 32),
          (∀ row col : Nat, row < n.toNat → col < 8 →
            ¬ (px.val = (s.V[x].toNat + col) % 64 ∧ py.val = (s.V[y].toNat + row) % 32)) →
          pixel t.fb px py = pixel s.fb px py) ∧
        ((∃ (row col : Nat) (px : Fin 64) (py : Fin 32), row < n.toNat ∧ col < 8 ∧
            px.val = (s.V[x].toNat + col) % 64 ∧ py.val = (s.V[y].toNat + row) % 32 ∧
            (Memory.read s.mem (s.I.toNat + row)).getLsbD (7 - col) = true ∧ pixel s.fb px py = true) →
          t.V[VF] = 1) ∧
        ((¬ ∃ (row col : Nat) (px : Fin 64) (py : Fin 32), row < n.toNat ∧ col < 8 ∧
            px.val = (s.V[x].toNat + col) % 64 ∧ py.val = (s.V[y].toNat + row) % 32 ∧
            (Memory.read s.mem (s.I.toNat + row)).getLsbD (7 - col) = true ∧ pixel s.fb px py = true) →
          t.V[VF] = 0) ∧
        t = { s with V := s.V.set VF t.V[VF], fb := t.fb, pc := s.pc + 2 }) ∧
    (n.toNat ≠ 0 → 0xFFF < s.I.toNat + n.toNat - 1 →
      exec (.drwVxVyNibble x y n) s = .next { s with
        halted := true
        fault := { code := .addressOutOfRange, pc := s.pc, opcode := (encode (.drwVxVyNibble x y n)).setWidth 17,
                   addr := BitVec.ofNat 16 (max s.I.toNat 0x1000) } })

/-- 41_display.md R105: a second draw with the same sprite at the same place, with no framebuffer write between, gives
back the framebuffer, and VF is 1 exactly when a set sprite bit lies on a pixel that was clear before the first draw. -/
def Obligations.DoubleDrawRestoresFramebuffer : Prop :=
  ∀ (x y x' y' : Reg) (n : Nibble) (s t s' : State), (n.toNat = 0 ∨ s.I.toNat + n.toNat - 1 ≤ 0xFFF) →
    exec (.drwVxVyNibble x y n) s = .next t →
    s'.fb = t.fb → s'.I = s.I → s'.V[x'] = s.V[x] → s'.V[y'] = s.V[y] →
    (∀ row < n.toNat, Memory.read s'.mem (s.I.toNat + row) = Memory.read s.mem (s.I.toNat + row)) →
    ∃ u, exec (.drwVxVyNibble x' y' n) s' = .next u ∧ u.fb = s.fb ∧
      (u.V[VF] = 1 ↔ ∃ (row col : Nat) (px : Fin 64) (py : Fin 32), row < n.toNat ∧ col < 8 ∧
        px.val = (s.V[x].toNat + col) % 64 ∧ py.val = (s.V[y].toNat + row) % 32 ∧
        (Memory.read s.mem (s.I.toNat + row)).getLsbD (7 - col) = true ∧ pixel s.fb px py = false) ∧
      (u.V[VF] = 0 ∨ u.V[VF] = 1)

/-! ### Control flow -/

/-- 42_flow.md R110: RET pops `pc`; with an empty stack it raises STACK_UNDERFLOW and changes nothing. -/
def Obligations.RetPopsReturnAddress : Prop :=
  (∀ w : Opcode, w &&& 0xFFFF#16 = 0x00EE#16 → decode w = .ok .ret) ∧
  ∀ s : State,
    (∀ k : Fin 16, s.sp.val = k.val + 1 →
      exec .ret s = .next { s with pc := s.stack[k], sp := k.castSucc }) ∧
    (s.sp = 0 → exec .ret s = .next { s with
      halted := true
      fault := { code := .stackUnderflow, pc := s.pc, opcode := 0x00EE#17, addr := 0 } })

/-- 42_flow.md R111: JP sets `pc` to NNN and changes nothing else. -/
def Obligations.JpSetsPc : Prop :=
  (∀ w : Opcode, w &&& 0xF000#16 = 0x1000#16 → decode w = .ok (.jpAddr (fieldNNN w))) ∧
  ∀ (nnn : Addr12) (s : State), exec (.jpAddr nnn) s = .next { s with pc := BitVec.ofNat 16 nnn.toNat }

/-- 42_flow.md R112: CALL pushes `pc + 2` and jumps; with 16 entries it raises STACK_OVERFLOW and changes nothing. -/
def Obligations.CallPushesReturnAddress : Prop :=
  (∀ w : Opcode, w &&& 0xF000#16 = 0x2000#16 → decode w = .ok (.callAddr (fieldNNN w))) ∧
  ∀ (nnn : Addr12) (s : State),
    (∀ k : Fin 16, s.sp = k.castSucc →
      exec (.callAddr nnn) s = .next { s with
        stack := s.stack.set k (s.pc + 2), sp := k.succ, pc := BitVec.ofNat 16 nnn.toNat }) ∧
    (s.sp = 16 → exec (.callAddr nnn) s = .next { s with
      halted := true
      fault := { code := .stackOverflow, pc := s.pc, opcode := (encode (.callAddr nnn)).setWidth 17, addr := 0 } })

/-- 42_flow.md R118: after a CALL, a RET at the same depth, with the pushed entry still there, returns behind it. -/
def Obligations.CallThenReturnRoundTrip : Prop :=
  ∀ (nnn : Addr12) (s t s' : State), s.sp.val < 16 → exec (.callAddr nnn) s = .next t →
    s'.sp = t.sp → (∀ k : Fin 16, k.val = s.sp.val → s'.stack[k] = t.stack[k]) →
    ∃ u, exec .ret s' = .next u ∧ u.pc = s.pc + 2 ∧ u.sp = s.sp

/-- 42_flow.md R113, R114: SE and SNE with a byte skip one instruction on the condition and change only `pc`. -/
def Obligations.SkipsOnByteComparison : Prop :=
  (∀ w : Opcode, w &&& 0xF000#16 = 0x3000#16 → decode w = .ok (.seVxByte (fieldX w) (fieldNN w))) ∧
  (∀ w : Opcode, w &&& 0xF000#16 = 0x4000#16 → decode w = .ok (.sneVxByte (fieldX w) (fieldNN w))) ∧
  ∀ (x : Reg) (nn : Byte) (s : State),
    exec (.seVxByte x nn) s = .next { s with pc := if s.V[x] = nn then s.pc + 4 else s.pc + 2 } ∧
    exec (.sneVxByte x nn) s = .next { s with pc := if s.V[x] ≠ nn then s.pc + 4 else s.pc + 2 }

/-- 42_flow.md R115, R116: SE and SNE with a register skip one instruction on the condition and change only `pc`. -/
def Obligations.SkipsOnRegisterComparison : Prop :=
  (∀ w : Opcode, w &&& 0xF00F#16 = 0x5000#16 → decode w = .ok (.seVxVy (fieldX w) (fieldY w))) ∧
  (∀ w : Opcode, w &&& 0xF00F#16 = 0x9000#16 → decode w = .ok (.sneVxVy (fieldX w) (fieldY w))) ∧
  ∀ (x y : Reg) (s : State),
    exec (.seVxVy x y) s = .next { s with pc := if s.V[x] = s.V[y] then s.pc + 4 else s.pc + 2 } ∧
    exec (.sneVxVy x y) s = .next { s with pc := if s.V[x] ≠ s.V[y] then s.pc + 4 else s.pc + 2 }

/-- 42_flow.md R117: BNNN sets `pc` to the exact sum of NNN and V0, at most 0x10FE, and changes nothing else. -/
def Obligations.ComputedJumpAddsV0 : Prop :=
  (∀ w : Opcode, w &&& 0xF000#16 = 0xB000#16 → decode w = .ok (.jpV0Addr (fieldNNN w))) ∧
  ∀ (nnn : Addr12) (s : State), ∃ t, exec (.jpV0Addr nnn) s = .next t ∧
    t.pc.toNat = nnn.toNat + s.V[(0 : Reg)].toNat ∧ t.pc.toNat ≤ 0x10FE ∧ t = { s with pc := t.pc }

/-! ### Registers and arithmetic -/

/-- 43_alu.md R131: LD Vx, byte. -/
def Obligations.LoadImmediate : Prop :=
  (∀ w : Opcode, w &&& 0xF000#16 = 0x6000#16 → decode w = .ok (.ldVxByte (fieldX w) (fieldNN w))) ∧
  ∀ (x : Reg) (nn : Byte) (s : State),
    exec (.ldVxByte x nn) s = .next { s with V := s.V.set x nn, pc := s.pc + 2 }

/-- 43_alu.md R132: ADD Vx, byte is modulo 256 and writes no flag. -/
def Obligations.AddImmediateWithoutFlag : Prop :=
  (∀ w : Opcode, w &&& 0xF000#16 = 0x7000#16 → decode w = .ok (.addVxByte (fieldX w) (fieldNN w))) ∧
  ∀ (x : Reg) (nn : Byte) (s : State),
    exec (.addVxByte x nn) s = .next { s with
      V := s.V.set x (BitVec.ofNat 8 ((s.V[x].toNat + nn.toNat) % 256)), pc := s.pc + 2 }

/-- 43_alu.md R133 to R136: copy, OR, AND, XOR of registers, with no flag. -/
def Obligations.CopyAndLogicWithoutFlag : Prop :=
  (∀ w : Opcode, w &&& 0xF00F#16 = 0x8000#16 → decode w = .ok (.ldVxVy (fieldX w) (fieldY w))) ∧
  (∀ w : Opcode, w &&& 0xF00F#16 = 0x8001#16 → decode w = .ok (.orVxVy (fieldX w) (fieldY w))) ∧
  (∀ w : Opcode, w &&& 0xF00F#16 = 0x8002#16 → decode w = .ok (.andVxVy (fieldX w) (fieldY w))) ∧
  (∀ w : Opcode, w &&& 0xF00F#16 = 0x8003#16 → decode w = .ok (.xorVxVy (fieldX w) (fieldY w))) ∧
  ∀ (x y : Reg) (s : State),
    exec (.ldVxVy x y) s = .next { s with V := s.V.set x s.V[y], pc := s.pc + 2 } ∧
    exec (.orVxVy x y) s = .next { s with V := s.V.set x (s.V[x] ||| s.V[y]), pc := s.pc + 2 } ∧
    exec (.andVxVy x y) s = .next { s with V := s.V.set x (s.V[x] &&& s.V[y]), pc := s.pc + 2 } ∧
    exec (.xorVxVy x y) s = .next { s with V := s.V.set x (s.V[x] ^^^ s.V[y]), pc := s.pc + 2 }

/-- 43_alu.md R137: ADD Vx, Vy is modulo 256, then VF is the carry. -/
def Obligations.AddRegistersWithCarry : Prop :=
  (∀ w : Opcode, w &&& 0xF00F#16 = 0x8004#16 → decode w = .ok (.addVxVy (fieldX w) (fieldY w))) ∧
  ∀ (x y : Reg) (s : State),
    exec (.addVxVy x y) s = .next { s with
      V := (s.V.set x (BitVec.ofNat 8 ((s.V[x].toNat + s.V[y].toNat) % 256))).set VF
        (if s.V[x].toNat + s.V[y].toNat > 255 then 1 else 0)
      pc := s.pc + 2 }

/-- 43_alu.md R138, R140: SUB and SUBN are modulo 256, then VF is 1 exactly when nothing was borrowed. -/
def Obligations.SubtractRegistersWithNotBorrow : Prop :=
  (∀ w : Opcode, w &&& 0xF00F#16 = 0x8005#16 → decode w = .ok (.subVxVy (fieldX w) (fieldY w))) ∧
  (∀ w : Opcode, w &&& 0xF00F#16 = 0x8007#16 → decode w = .ok (.subnVxVy (fieldX w) (fieldY w))) ∧
  ∀ (x y : Reg) (s : State),
    exec (.subVxVy x y) s = .next { s with
      V := (s.V.set x (BitVec.ofNat 8 ((s.V[x].toNat + 256 - s.V[y].toNat) % 256))).set VF
        (if s.V[x].toNat ≥ s.V[y].toNat then 1 else 0)
      pc := s.pc + 2 } ∧
    exec (.subnVxVy x y) s = .next { s with
      V := (s.V.set x (BitVec.ofNat 8 ((s.V[y].toNat + 256 - s.V[x].toNat) % 256))).set VF
        (if s.V[y].toNat ≥ s.V[x].toNat then 1 else 0)
      pc := s.pc + 2 }

/-- 43_alu.md R139, R141: SHR and SHL shift `V[X]` by one whatever `Y` is, then VF is the bit shifted out. -/
def Obligations.ShiftsWithBitShiftedOut : Prop :=
  (∀ w : Opcode, w &&& 0xF00F#16 = 0x8006#16 → decode w = .ok (.shrVxVy (fieldX w) (fieldY w))) ∧
  (∀ w : Opcode, w &&& 0xF00F#16 = 0x800E#16 → decode w = .ok (.shlVxVy (fieldX w) (fieldY w))) ∧
  ∀ (x y : Reg) (s : State),
    exec (.shrVxVy x y) s = .next { s with
      V := (s.V.set x (BitVec.ofNat 8 (s.V[x].toNat / 2))).set VF (BitVec.ofNat 8 (s.V[x].toNat % 2))
      pc := s.pc + 2 } ∧
    exec (.shlVxVy x y) s = .next { s with
      V := (s.V.set x (BitVec.ofNat 8 (s.V[x].toNat * 2 % 256))).set VF (BitVec.ofNat 8 (s.V[x].toNat / 128))
      pc := s.pc + 2 }

/-- 43_alu.md R130: operands are read first and the flag is written last: the flag is in VF after a flag writer, also
when `X` is VF; and with `Y` = VF the operand is the old VF. -/
def Obligations.FlagWrittenLastSurvivesInVF : Prop :=
  ∀ (x y : Reg) (s t : State),
    (exec (.addVxVy x y) s = .next t → t.V[VF] = if s.V[x].toNat + s.V[y].toNat > 255 then 1 else 0) ∧
    (exec (.subVxVy x y) s = .next t → t.V[VF] = if s.V[x].toNat ≥ s.V[y].toNat then 1 else 0) ∧
    (exec (.subnVxVy x y) s = .next t → t.V[VF] = if s.V[y].toNat ≥ s.V[x].toNat then 1 else 0) ∧
    (exec (.shrVxVy x y) s = .next t → t.V[VF] = BitVec.ofNat 8 (s.V[x].toNat % 2)) ∧
    (exec (.shlVxVy x y) s = .next t → t.V[VF] = BitVec.ofNat 8 (s.V[x].toNat / 128)) ∧
    (x ≠ VF → exec (.addVxVy x VF) s = .next t → t.V[x] = s.V[x] + s.V[VF]) ∧
    (x ≠ VF → exec (.subVxVy x VF) s = .next t → t.V[x] = s.V[x] - s.V[VF]) ∧
    (x ≠ VF → exec (.subnVxVy x VF) s = .next t → t.V[x] = s.V[VF] - s.V[x])

/-- 43_alu.md R142: RND writes the draw masked by NN, for every draw the host passes; and in every state it writes some
byte masked by NN. The two draw fields are the model's own (log entry 2), and nothing is said of them. -/
def Obligations.RandomByteIsMasked : Prop :=
  (∀ w : Opcode, w &&& 0xF000#16 = 0xC000#16 → decode w = .ok (.rndVxByte (fieldX w) (fieldNN w))) ∧
  ∀ (x : Reg) (nn : Byte) (s : State),
    (∀ r : Byte, ∃ t, exec (.rndVxByte x nn) { s with draw := some r } = .next t ∧
      t = { s with V := s.V.set x (r &&& nn), pc := s.pc + 2, draw := t.draw, drawCount := t.drawCount }) ∧
    (∃ t, exec (.rndVxByte x nn) s = .next t ∧ ∃ r : Byte,
      t = { s with V := s.V.set x (r &&& nn), pc := s.pc + 2, draw := t.draw, drawCount := t.drawCount })

/-! ### Index register and memory -/

/-- 44_index_memory.md R150, R151, R152: the three writers of `I`, with no flag and no fault. -/
def Obligations.IndexRegisterWrites : Prop :=
  (∀ w : Opcode, w &&& 0xF000#16 = 0xA000#16 → decode w = .ok (.ldIAddr (fieldNNN w))) ∧
  (∀ w : Opcode, w &&& 0xF0FF#16 = 0xF01E#16 → decode w = .ok (.addIVx (fieldX w))) ∧
  (∀ w : Opcode, w &&& 0xF0FF#16 = 0xF029#16 → decode w = .ok (.ldFVx (fieldX w))) ∧
  ∀ (nnn : Addr12) (x : Reg) (s : State),
    exec (.ldIAddr nnn) s = .next { s with I := BitVec.ofNat 16 nnn.toNat, pc := s.pc + 2 } ∧
    exec (.addIVx x) s = .next { s with
      I := BitVec.ofNat 16 ((s.I.toNat + s.V[x].toNat) % 65536), pc := s.pc + 2 } ∧
    exec (.ldFVx x) s = .next { s with I := BitVec.ofNat 16 (0x050 + s.V[x].toNat * 5), pc := s.pc + 2 }

/-- 44_index_memory.md R153: FX33 stores the three decimal digits at I, I+1, I+2 and changes nothing else; past 0xFFF
it raises and writes nothing. -/
def Obligations.StoreDecimalDigits : Prop :=
  (∀ w : Opcode, w &&& 0xF0FF#16 = 0xF033#16 → decode w = .ok (.ldBVx (fieldX w))) ∧
  ∀ (x : Reg) (s : State),
    (Memory.wf s.mem = true → s.I.toNat + 2 ≤ 0xFFF →
      ∃ t, exec (.ldBVx x) s = .next t ∧
        (∀ a : Nat, indexed s 0 = a →
          Memory.read t.mem a = BitVec.ofNat 8 (s.V[x].toNat / 100) ∧
          Memory.read t.mem (a + 1) = BitVec.ofNat 8 (s.V[x].toNat / 10 % 10) ∧
          Memory.read t.mem (a + 2) = BitVec.ofNat 8 (s.V[x].toNat % 10) ∧
          ∀ b : Nat, (b < a ∨ a + 3 ≤ b) → Memory.read t.mem b = Memory.read s.mem b) ∧
        indexed s 0 = s.I.toNat ∧
        t = { s with mem := t.mem, pc := s.pc + 2 }) ∧
    (0xFFF < s.I.toNat + 2 → exec (.ldBVx x) s = .next { s with
      halted := true
      fault := { code := .addressOutOfRange, pc := s.pc, opcode := (encode (.ldBVx x)).setWidth 17,
                 addr := BitVec.ofNat 16 (max s.I.toNat 0x1000) } })

/-- 44_index_memory.md R154: FX55 stores V0..VX at I..I+X, leaves `I` and everything else; past 0xFFF it raises and
writes nothing. -/
def Obligations.StoreRegisterBlock : Prop :=
  (∀ w : Opcode, w &&& 0xF0FF#16 = 0xF055#16 → decode w = .ok (.ldMemIVx (fieldX w))) ∧
  ∀ (x : Reg) (s : State),
    (Memory.wf s.mem = true → s.I.toNat + x.val ≤ 0xFFF →
      ∃ t, exec (.ldMemIVx x) s = .next t ∧
        (∀ a : Nat, indexed s 0 = a →
          (∀ k : Reg, k ≤ x → Memory.read t.mem (a + k.val) = s.V[k]) ∧
          ∀ b : Nat, (b < a ∨ a + x.val + 1 ≤ b) → Memory.read t.mem b = Memory.read s.mem b) ∧
        indexed s 0 = s.I.toNat ∧
        t = { s with mem := t.mem, pc := s.pc + 2 }) ∧
    (0xFFF < s.I.toNat + x.val → exec (.ldMemIVx x) s = .next { s with
      halted := true
      fault := { code := .addressOutOfRange, pc := s.pc, opcode := (encode (.ldMemIVx x)).setWidth 17,
                 addr := BitVec.ofNat 16 (max s.I.toNat 0x1000) } })

/-- 44_index_memory.md R155: FX65 loads V0..VX from I..I+X, leaves the other registers, `I`, memory and everything
else; past 0xFFF it raises and writes nothing. -/
def Obligations.LoadRegisterBlock : Prop :=
  (∀ w : Opcode, w &&& 0xF0FF#16 = 0xF065#16 → decode w = .ok (.ldVxMemI (fieldX w))) ∧
  ∀ (x : Reg) (s : State),
    (s.I.toNat + x.val ≤ 0xFFF →
      ∃ t, exec (.ldVxMemI x) s = .next t ∧
        (∀ k : Reg, k ≤ x → t.V[k] = Memory.read s.mem (s.I.toNat + k.val)) ∧
        (∀ k : Reg, x < k → t.V[k] = s.V[k]) ∧
        t = { s with V := t.V, pc := s.pc + 2 }) ∧
    (0xFFF < s.I.toNat + x.val → exec (.ldVxMemI x) s = .next { s with
      halted := true
      fault := { code := .addressOutOfRange, pc := s.pc, opcode := (encode (.ldVxMemI x)).setWidth 17,
                 addr := BitVec.ofNat 16 (max s.I.toNat 0x1000) } })

/-- 44_index_memory.md R156: FX55, then FX65 with the same `X` and `I` and the stored bytes untouched between them,
gives back V0..VX. -/
def Obligations.StoreThenLoadRoundTrip : Prop :=
  ∀ (x : Reg) (s t s' : State), Memory.wf s.mem = true → s.I.toNat + x.val ≤ 0xFFF →
    exec (.ldMemIVx x) s = .next t → s'.I = s.I →
    (∀ k : Nat, k ≤ x.val → Memory.read s'.mem (s.I.toNat + k) = Memory.read t.mem (s.I.toNat + k)) →
    ∃ u, exec (.ldVxMemI x) s' = .next u ∧ ∀ k : Reg, k ≤ x → u.V[k] = s.V[k]

/-! ### Keypad and timers -/

/-- 45_keypad_timer.md R160, R161, R162: SKP and SKNP skip on the state of key `V[X]` and change only `pc`; above 0xF
they raise KEY_INDEX_OUT_OF_RANGE with the register value and change nothing. -/
def Obligations.SkipsOnKey : Prop :=
  (∀ w : Opcode, w &&& 0xF0FF#16 = 0xE09E#16 → decode w = .ok (.skpVx (fieldX w))) ∧
  (∀ w : Opcode, w &&& 0xF0FF#16 = 0xE0A1#16 → decode w = .ok (.sknpVx (fieldX w))) ∧
  ∀ (x : Reg) (s : State),
    (∀ k : Fin 16, s.V[x].toNat = k.val →
      exec (.skpVx x) s = .next { s with pc := if s.key[k] = true then s.pc + 4 else s.pc + 2 } ∧
      exec (.sknpVx x) s = .next { s with pc := if s.key[k] = false then s.pc + 4 else s.pc + 2 }) ∧
    (0xF < s.V[x].toNat →
      exec (.skpVx x) s = .next { s with
        halted := true
        fault := { code := .keyIndexOutOfRange, pc := s.pc, opcode := (encode (.skpVx x)).setWidth 17,
                   addr := BitVec.ofNat 16 s.V[x].toNat } } ∧
      exec (.sknpVx x) s = .next { s with
        halted := true
        fault := { code := .keyIndexOutOfRange, pc := s.pc, opcode := (encode (.sknpVx x)).setWidth 17,
                   addr := BitVec.ofNat 16 s.V[x].toNat } })

/-- 45_keypad_timer.md R163: FX0A stores the least pressed key, or changes nothing and reports WAITING while none is
pressed. -/
def Obligations.WaitForKeyStoresLeastPressed : Prop :=
  (∀ w : Opcode, w &&& 0xF0FF#16 = 0xF00A#16 → decode w = .ok (.ldVxK (fieldX w))) ∧
  ∀ (x : Reg) (s : State),
    (∀ k : Fin 16, s.key[k] = true → (∀ j : Fin 16, j < k → s.key[j] = false) →
      exec (.ldVxK x) s = .next { s with V := s.V.set x (BitVec.ofNat 8 k.val), pc := s.pc + 2 } ∧
      ∀ w, reportOf (.ldVxK x) w s = .ok) ∧
    ((∀ k : Fin 16, s.key[k] = false) →
      exec (.ldVxK x) s = .next s ∧ ∀ w, reportOf (.ldVxK x) w s = .waiting)

/-- 45_keypad_timer.md R164, R165, R166: the three copies between a register and a timer. -/
def Obligations.TimerCopies : Prop :=
  (∀ w : Opcode, w &&& 0xF0FF#16 = 0xF007#16 → decode w = .ok (.ldVxDT (fieldX w))) ∧
  (∀ w : Opcode, w &&& 0xF0FF#16 = 0xF015#16 → decode w = .ok (.ldDTVx (fieldX w))) ∧
  (∀ w : Opcode, w &&& 0xF0FF#16 = 0xF018#16 → decode w = .ok (.ldSTVx (fieldX w))) ∧
  ∀ (x : Reg) (s : State),
    exec (.ldVxDT x) s = .next { s with V := s.V.set x s.delay, pc := s.pc + 2 } ∧
    exec (.ldDTVx x) s = .next { s with delay := s.V[x], pc := s.pc + 2 } ∧
    (∃ t, exec (.ldSTVx x) s = .next t ∧ t = { s with sound := s.V[x], pc := s.pc + 2 } ∧
      (soundActive t = true ↔ 0 < s.V[x].toNat))

/-! ### Rules about the whole machine -/

/-- A step never ticks: `delay` and `sound` change only when the step runs FX15 or FX18 (40_cycle.md R97, 10_state.md
R33); and no step writes the keypad (10_state.md R34, 60_exceptions.md R189). -/
def Obligations.StepNeverTicksOrWritesKeypad : Prop :=
  ∀ s t : State, step s = .next t →
    (t.delay = s.delay ∨ ∃ w x, s.fetch = some w ∧ decode w = .ok (.ldDTVx x) ∧ t.delay = s.V[x]) ∧
    (t.sound = s.sound ∨ ∃ w x, s.fetch = some w ∧ decode w = .ok (.ldSTVx x) ∧ t.sound = s.V[x]) ∧
    t.key = s.key

/-- Only 00E0 and DXYN change the framebuffer (10_state.md R32). -/
def Obligations.OnlyClsAndDrwWriteFramebuffer : Prop :=
  ∀ s t : State, step s = .next t → t.fb ≠ s.fb →
    ∃ w, s.fetch = some w ∧ (decode w = .ok .cls ∨ ∃ x y n, decode w = .ok (.drwVxVyNibble x y n))

/-- Only FX33 and FX55 change memory, and only the bytes they store to (20_memory.md R55, R58). -/
def Obligations.OnlyStoresWriteMemory : Prop :=
  ∀ (s t : State) (b : Nat), step s = .next t → Memory.read t.mem b ≠ Memory.read s.mem b →
    ∃ w x, s.fetch = some w ∧
      ((decode w = .ok (.ldBVx x) ∧ s.I.toNat ≤ b ∧ b ≤ s.I.toNat + 2) ∨
       (decode w = .ok (.ldMemIVx x) ∧ s.I.toNat ≤ b ∧ b ≤ s.I.toNat + x.val))

/-- Only 2NNN and 00EE change the stack pointer, and only 2NNN an entry, the one at `sp` (10_state.md R28, R29, R30). -/
def Obligations.OnlyCallAndRetUseStack : Prop :=
  ∀ s t : State, step s = .next t →
    (t.sp ≠ s.sp → ∃ w, s.fetch = some w ∧ (decode w = .ok .ret ∨ ∃ nnn, decode w = .ok (.callAddr nnn))) ∧
    (∀ k : Fin 16, t.stack[k] ≠ s.stack[k] →
      k.val = s.sp.val ∧ ∃ w nnn, s.fetch = some w ∧ decode w = .ok (.callAddr nnn))

/-- 10_state.md R21: the registers each instruction may write; every other register keeps its value. -/
def Obligations.RegistersWrittenByEachInstruction : Prop :=
  ∀ (i : Instr) (s t : State) (k : Reg), exec i s = .next t → t.V[k] ≠ s.V[k] →
    match i with
    | .ldVxByte x _ => k = x
    | .addVxByte x _ => k = x
    | .ldVxVy x _ => k = x
    | .orVxVy x _ => k = x
    | .andVxVy x _ => k = x
    | .xorVxVy x _ => k = x
    | .addVxVy x _ => k = x ∨ k = VF
    | .subVxVy x _ => k = x ∨ k = VF
    | .subnVxVy x _ => k = x ∨ k = VF
    | .shrVxVy x _ => k = x ∨ k = VF
    | .shlVxVy x _ => k = x ∨ k = VF
    | .rndVxByte x _ => k = x
    | .drwVxVyNibble _ _ _ => k = VF
    | .ldVxDT x => k = x
    | .ldVxK x => k = x
    | .ldVxMemI x => k ≤ x
    | _ => False

/-- `I` is written by ANNN, FX1E and FX29 alone; FX55 and FX65 leave it (10_state.md R24). -/
def Obligations.IndexRegisterWriters : Prop :=
  ∀ (i : Instr) (s t : State), exec i s = .next t → t.I ≠ s.I →
    (∃ nnn, i = .ldIAddr nnn) ∨ (∃ x, i = .addIVx x) ∨ ∃ x, i = .ldFVx x

/-- 40_cycle.md R96: the change of `pc` by each instruction and by an unknown opcode. -/
def Obligations.PcChangeOfEachInstruction : Prop :=
  (∀ (s : State) (w : Opcode), s.halted = false → s.fetch = some w → (∃ g, decode w = .error g) →
    step s = .next { s with pc := s.pc + 2 }) ∧
  ∀ (i : Instr) (s t : State), s.halted = false → exec i s = .next t →
    (t.halted = true → t.pc = s.pc) ∧
    (t.halted = false →
      match i with
      | .ret => ∀ k : Fin 16, s.sp.val = k.val + 1 → t.pc = s.stack[k]
      | .jpAddr nnn => t.pc.toNat = nnn.toNat
      | .callAddr nnn => t.pc.toNat = nnn.toNat ∧ ∀ k : Fin 16, k.val = s.sp.val → t.stack[k] = s.pc + 2
      | .seVxByte x nn => t.pc = if s.V[x] = nn then s.pc + 4 else s.pc + 2
      | .sneVxByte x nn => t.pc = if s.V[x] ≠ nn then s.pc + 4 else s.pc + 2
      | .seVxVy x y => t.pc = if s.V[x] = s.V[y] then s.pc + 4 else s.pc + 2
      | .sneVxVy x y => t.pc = if s.V[x] ≠ s.V[y] then s.pc + 4 else s.pc + 2
      | .jpV0Addr nnn => t.pc.toNat = nnn.toNat + s.V[(0 : Reg)].toNat
      | .skpVx x => ∀ k : Fin 16, s.V[x].toNat = k.val →
          t.pc = if s.key[k] = true then s.pc + 4 else s.pc + 2
      | .sknpVx x => ∀ k : Fin 16, s.V[x].toNat = k.val →
          t.pc = if s.key[k] = false then s.pc + 4 else s.pc + 2
      | .ldVxK _ => ((∃ k : Fin 16, s.key[k] = true) → t.pc = s.pc + 2) ∧
          ((∀ k : Fin 16, s.key[k] = false) → t.pc = s.pc)
      | _ => t.pc = s.pc + 2)

/-- `step(r)` runs with the draw `r`, and one that does not run CXNN ignores it: every draw gives the same state and the
same result (40_cycle.md R90, R98). The draw field that carries `r` is the model's (log entry 2), and what it holds
after the operation is left open. -/
def Obligations.DrawMattersOnlyToRnd : Prop :=
  ∀ (font : Vector Byte 80) (s : State),
    (∀ (r : Byte) (t : State), step { s with draw := some r } = .next t →
      ∃ u, perform font (.step r) (some s) = .next (u, .stepped (resultOf s t)) ∧ u = { t with draw := u.draw }) ∧
    ((∀ w x nn, s.fetch = some w → decode w ≠ .ok (.rndVxByte x nn)) →
      ∀ r r' : Byte, perform font (.step r) (some s) = perform font (.step r') (some s))
end

