-- ==== Sys2Proof/Laws/Decode.lean ====
section
/-! SUPPORT. The fields of an encoded word, a word from its fields, and masks as fields. -/

namespace Sys2Proof

/-! ### Bits of a format -/

theorem getLsbD_formatAddr (t : Nibble) (nnn : Addr12) (i : Nat) :
    (formatAddr t nnn).getLsbD i = if i < 12 then nnn.getLsbD i else t.getLsbD (i - 12) :=
  (BitVec.getLsbD_append (x := t) (y := nnn)).trans (by split <;> simp_all)

theorem getLsbD_formatRegByte (t : Nibble) (x : Reg) (nn : Byte) (i : Nat) :
    (formatRegByte t x nn).getLsbD i =
      if i < 8 then nn.getLsbD i else if i < 12 then (BitVec.ofFin x : Nibble).getLsbD (i - 8)
      else t.getLsbD (i - 12) := by
  refine (BitVec.getLsbD_append (x := t) (y := (BitVec.ofFin x : Nibble) ++ nn)).trans ?_
  rw [BitVec.getLsbD_append]
  by_cases h8 : i < 8
  · simp [h8, show i < 12 by omega]
  · by_cases h12 : i < 12 <;> simp [h8, h12]

theorem getLsbD_formatRegReg (t : Nibble) (x y : Reg) (n : Nibble) (i : Nat) :
    (formatRegReg t x y n).getLsbD i =
      if i < 4 then n.getLsbD i else if i < 8 then (BitVec.ofFin y : Nibble).getLsbD (i - 4)
      else if i < 12 then (BitVec.ofFin x : Nibble).getLsbD (i - 8) else t.getLsbD (i - 12) := by
  refine (BitVec.getLsbD_append (x := t) (y := (BitVec.ofFin x : Nibble) ++ ((BitVec.ofFin y : Nibble) ++ n))).trans ?_
  rw [BitVec.getLsbD_append, BitVec.getLsbD_append]
  by_cases h4 : i < 4
  · simp [h4, show i < 12 by omega, show i < 8 by omega]
  · by_cases h8 : i < 8
    · simp [h4, h8, show i < 12 by omega]
    · by_cases h12 : i < 12 <;> simp [h4, h8, h12]

/-! ### Fields of a format -/

@[simp] theorem fieldT_formatAddr (t : Nibble) (nnn : Addr12) : fieldT (formatAddr t nnn) = t := by
  apply BitVec.eq_of_getLsbD_eq; intro i hi
  simp [fieldT, getLsbD_formatAddr, hi]

@[simp] theorem fieldNNN_formatAddr (t : Nibble) (nnn : Addr12) : fieldNNN (formatAddr t nnn) = nnn := by
  apply BitVec.eq_of_getLsbD_eq; intro i hi
  simp [fieldNNN, getLsbD_formatAddr, hi]

@[simp] theorem fieldT_formatRegByte (t : Nibble) (x : Reg) (nn : Byte) :
    fieldT (formatRegByte t x nn) = t := by
  apply BitVec.eq_of_getLsbD_eq; intro i hi
  simp [fieldT, getLsbD_formatRegByte, hi, show ¬ 12 + i < 8 by omega]

@[simp] theorem fieldX_formatRegByte (t : Nibble) (x : Reg) (nn : Byte) :
    fieldX (formatRegByte t x nn) = x := by
  have : (formatRegByte t x nn).extractLsb' 8 4 = (BitVec.ofFin x : Nibble) := by
    apply BitVec.eq_of_getLsbD_eq; intro i hi
    simp [getLsbD_formatRegByte, hi, show 8 + i < 12 by omega]
  simp [fieldX, this]

@[simp] theorem fieldNN_formatRegByte (t : Nibble) (x : Reg) (nn : Byte) :
    fieldNN (formatRegByte t x nn) = nn := by
  apply BitVec.eq_of_getLsbD_eq; intro i hi
  simp [fieldNN, getLsbD_formatRegByte, hi]

@[simp] theorem fieldT_formatRegReg (t : Nibble) (x y : Reg) (n : Nibble) :
    fieldT (formatRegReg t x y n) = t := by
  apply BitVec.eq_of_getLsbD_eq; intro i hi
  simp [fieldT, getLsbD_formatRegReg, hi, show ¬ 12 + i < 4 by omega, show ¬ 12 + i < 8 by omega]

@[simp] theorem fieldX_formatRegReg (t : Nibble) (x y : Reg) (n : Nibble) :
    fieldX (formatRegReg t x y n) = x := by
  have : (formatRegReg t x y n).extractLsb' 8 4 = (BitVec.ofFin x : Nibble) := by
    apply BitVec.eq_of_getLsbD_eq; intro i hi
    simp [getLsbD_formatRegReg, hi, show ¬ 8 + i < 4 by omega, show 8 + i < 12 by omega]
  simp [fieldX, this]

@[simp] theorem fieldY_formatRegReg (t : Nibble) (x y : Reg) (n : Nibble) :
    fieldY (formatRegReg t x y n) = y := by
  have : (formatRegReg t x y n).extractLsb' 4 4 = (BitVec.ofFin y : Nibble) := by
    apply BitVec.eq_of_getLsbD_eq; intro i hi
    simp [getLsbD_formatRegReg, hi, show 4 + i < 8 by omega]
  simp [fieldY, this]

@[simp] theorem fieldN_formatRegReg (t : Nibble) (x y : Reg) (n : Nibble) :
    fieldN (formatRegReg t x y n) = n := by
  apply BitVec.eq_of_getLsbD_eq; intro i hi
  simp [fieldN, getLsbD_formatRegReg, hi]

/-! ### A word from its fields -/

theorem getLsbD_fieldT (w : Opcode) (i : Nat) (hi : i < 4) : (fieldT w).getLsbD i = w.getLsbD (12 + i) := by
  simp [fieldT, hi]

theorem getLsbD_fieldX (w : Opcode) (i : Nat) (hi : i < 4) :
    (BitVec.ofFin (fieldX w) : Nibble).getLsbD i = w.getLsbD (8 + i) := by
  show (w.extractLsb' 8 4).getLsbD i = _
  simp [hi]

theorem getLsbD_fieldY (w : Opcode) (i : Nat) (hi : i < 4) :
    (BitVec.ofFin (fieldY w) : Nibble).getLsbD i = w.getLsbD (4 + i) := by
  show (w.extractLsb' 4 4).getLsbD i = _
  simp [hi]

theorem formatAddr_fields (w : Opcode) : formatAddr (fieldT w) (fieldNNN w) = w := by
  apply BitVec.eq_of_getLsbD_eq; intro i hi
  rw [getLsbD_formatAddr]
  split
  · next h => simp [fieldNNN, h]
  · next h => rw [getLsbD_fieldT _ _ (by omega), show 12 + (i - 12) = i by omega]

theorem formatRegByte_fields (w : Opcode) : formatRegByte (fieldT w) (fieldX w) (fieldNN w) = w := by
  apply BitVec.eq_of_getLsbD_eq; intro i hi
  rw [getLsbD_formatRegByte]
  split
  · next h => simp [fieldNN, h]
  · split
    · rw [getLsbD_fieldX _ _ (by omega), show 8 + (i - 8) = i by omega]
    · rw [getLsbD_fieldT _ _ (by omega), show 12 + (i - 12) = i by omega]

theorem formatRegReg_fields (w : Opcode) :
    formatRegReg (fieldT w) (fieldX w) (fieldY w) (fieldN w) = w := by
  apply BitVec.eq_of_getLsbD_eq; intro i hi
  rw [getLsbD_formatRegReg]
  split
  · next h => simp [fieldN, h]
  · split
    · rw [getLsbD_fieldY _ _ (by omega), show 4 + (i - 4) = i by omega]
    · split
      · rw [getLsbD_fieldX _ _ (by omega), show 8 + (i - 8) = i by omega]
      · rw [getLsbD_fieldT _ _ (by omega), show 12 + (i - 12) = i by omega]

/-! ### Masks as fields (the columns of spec/opcode_table.json) -/

/-- A word under the mask 0xF000 keeps `T` and clears the rest. -/
theorem and_F000 (w : Opcode) : w &&& 0xF000#16 = formatAddr (fieldT w) 0 := by
  apply BitVec.eq_of_getLsbD_eq; intro i hi
  have hm : ∀ i < 16, (0xF000#16).getLsbD i = decide (12 ≤ i) := by decide
  rw [getLsbD_formatAddr, BitVec.getLsbD_and, hm i hi]
  split
  · next h => simp [show ¬ 12 ≤ i by omega]
  · next h => rw [getLsbD_fieldT _ _ (by omega), show 12 + (i - 12) = i by omega]; simp [show 12 ≤ i by omega]

/-- A word under the mask 0xF00F keeps `T` and `N` and clears the rest. -/
theorem and_F00F (w : Opcode) : w &&& 0xF00F#16 = formatRegReg (fieldT w) 0 0 (fieldN w) := by
  apply BitVec.eq_of_getLsbD_eq; intro i hi
  have hm : ∀ i < 16, (0xF00F#16).getLsbD i = (decide (i < 4) || decide (12 ≤ i)) := by decide
  rw [getLsbD_formatRegReg, BitVec.getLsbD_and, hm i hi]
  split
  · next h => simp [fieldN, h]
  · split
    · next h4 h8 => simp [h4, show ¬ 12 ≤ i by omega]
    · split
      · next h4 _ h12 => simp [h4, show ¬ 12 ≤ i by omega]
      · rw [getLsbD_fieldT _ _ (by omega), show 12 + (i - 12) = i by omega]; simp [show 12 ≤ i by omega]

/-- A word under the mask 0xF0FF keeps `T` and `NN` and clears `X`. -/
theorem and_F0FF (w : Opcode) : w &&& 0xF0FF#16 = formatRegByte (fieldT w) 0 (fieldNN w) := by
  apply BitVec.eq_of_getLsbD_eq; intro i hi
  have hm : ∀ i < 16, (0xF0FF#16).getLsbD i = (decide (i < 8) || decide (12 ≤ i)) := by decide
  rw [getLsbD_formatRegByte, BitVec.getLsbD_and, hm i hi]
  split
  · next h => simp [fieldNN, h]
  · split
    · next h8 h12 => simp [h8, show ¬ 12 ≤ i by omega]
    · rw [getLsbD_fieldT _ _ (by omega), show 12 + (i - 12) = i by omega]; simp [show 12 ≤ i by omega]

theorem formatAddr_and (t : Nibble) (nnn : Addr12) : formatAddr t nnn &&& 0xF000#16 = formatAddr t 0 := by
  rw [and_F000, fieldT_formatAddr]

theorem formatRegByte_and_F000 (t : Nibble) (x : Reg) (nn : Byte) :
    formatRegByte t x nn &&& 0xF000#16 = formatAddr t 0 := by
  rw [and_F000, fieldT_formatRegByte]

theorem formatRegByte_and (t : Nibble) (x : Reg) (nn : Byte) :
    formatRegByte t x nn &&& 0xF0FF#16 = formatRegByte t 0 nn := by
  rw [and_F0FF, fieldT_formatRegByte, fieldNN_formatRegByte]

theorem formatRegReg_and_F000 (t : Nibble) (x y : Reg) (n : Nibble) :
    formatRegReg t x y n &&& 0xF000#16 = formatAddr t 0 := by
  rw [and_F000, fieldT_formatRegReg]

theorem formatRegReg_and (t : Nibble) (x y : Reg) (n : Nibble) :
    formatRegReg t x y n &&& 0xF00F#16 = formatRegReg t 0 0 n := by
  rw [and_F00F, fieldT_formatRegReg, fieldN_formatRegReg]

/-- A row with mask 0xF000 matches exactly the words of its group. -/
theorem mask_F000_iff (w : Opcode) (t : Nibble) : w &&& 0xF000#16 = formatAddr t 0 ↔ fieldT w = t := by
  rw [and_F000]
  exact ⟨fun h => by simpa using congrArg fieldT h, fun h => by rw [h]⟩

/-- A row with mask 0xF00F matches exactly the words with its `T` and `N`. -/
theorem mask_F00F_iff (w : Opcode) (t n : Nibble) :
    w &&& 0xF00F#16 = formatRegReg t 0 0 n ↔ fieldT w = t ∧ fieldN w = n := by
  rw [and_F00F]
  exact ⟨fun h => ⟨by simpa using congrArg fieldT h, by simpa using congrArg fieldN h⟩,
    fun h => by rw [h.1, h.2]⟩

/-- A row with mask 0xF0FF matches exactly the words with its `T` and `NN`. -/
theorem mask_F0FF_iff (w : Opcode) (t : Nibble) (nn : Byte) :
    w &&& 0xF0FF#16 = formatRegByte t 0 nn ↔ fieldT w = t ∧ fieldNN w = nn := by
  rw [and_F0FF]
  exact ⟨fun h => ⟨by simpa using congrArg fieldT h, by simpa using congrArg fieldNN h⟩,
    fun h => by rw [h.1, h.2]⟩

/-! ### The decoder, group by group (30_encoding.md R74) -/

section
variable {w : Opcode}

theorem decode_T0 (h : fieldT w = 0x0#4) : decode w = .ok (decodeGroup0 w) := by
  unfold decode; rw [h]; rfl

theorem decode_T1 (h : fieldT w = 0x1#4) : decode w = .ok (.jpAddr (fieldNNN w)) := by
  unfold decode; rw [h]; rfl

theorem decode_T2 (h : fieldT w = 0x2#4) : decode w = .ok (.callAddr (fieldNNN w)) := by
  unfold decode; rw [h]; rfl

theorem decode_T3 (h : fieldT w = 0x3#4) : decode w = .ok (.seVxByte (fieldX w) (fieldNN w)) := by
  unfold decode; rw [h]; rfl

theorem decode_T4 (h : fieldT w = 0x4#4) : decode w = .ok (.sneVxByte (fieldX w) (fieldNN w)) := by
  unfold decode; rw [h]; rfl

theorem decode_T5 (h : fieldT w = 0x5#4) : decode w = decodeGroup5 w := by
  unfold decode; rw [h]; rfl

theorem decode_T6 (h : fieldT w = 0x6#4) : decode w = .ok (.ldVxByte (fieldX w) (fieldNN w)) := by
  unfold decode; rw [h]; rfl

theorem decode_T7 (h : fieldT w = 0x7#4) : decode w = .ok (.addVxByte (fieldX w) (fieldNN w)) := by
  unfold decode; rw [h]; rfl

theorem decode_T8 (h : fieldT w = 0x8#4) : decode w = decodeGroup8 w := by
  unfold decode; rw [h]; rfl

theorem decode_T9 (h : fieldT w = 0x9#4) : decode w = decodeGroup9 w := by
  unfold decode; rw [h]; rfl

theorem decode_TA (h : fieldT w = 0xA#4) : decode w = .ok (.ldIAddr (fieldNNN w)) := by
  unfold decode; rw [h]; rfl

theorem decode_TB (h : fieldT w = 0xB#4) : decode w = .ok (.jpV0Addr (fieldNNN w)) := by
  unfold decode; rw [h]; rfl

theorem decode_TC (h : fieldT w = 0xC#4) : decode w = .ok (.rndVxByte (fieldX w) (fieldNN w)) := by
  unfold decode; rw [h]; rfl

theorem decode_TD (h : fieldT w = 0xD#4) : decode w = .ok (.drwVxVyNibble (fieldX w) (fieldY w) (fieldN w)) := by
  unfold decode; rw [h]; rfl

theorem decode_TE (h : fieldT w = 0xE#4) : decode w = decodeGroupE w := by
  unfold decode; rw [h]; rfl

theorem decode_TF (h : fieldT w = 0xF#4) : decode w = decodeGroupF w := by
  unfold decode; rw [h]; rfl

theorem decode_ldVxVy (ht : fieldT w = 0x8#4) (hn : fieldN w = 0x0#4) :
    decode w = .ok (.ldVxVy (fieldX w) (fieldY w)) := by
  rw [decode_T8 ht]; unfold decodeGroup8; rw [hn]; rfl

theorem decode_orVxVy (ht : fieldT w = 0x8#4) (hn : fieldN w = 0x1#4) :
    decode w = .ok (.orVxVy (fieldX w) (fieldY w)) := by
  rw [decode_T8 ht]; unfold decodeGroup8; rw [hn]; rfl

theorem decode_andVxVy (ht : fieldT w = 0x8#4) (hn : fieldN w = 0x2#4) :
    decode w = .ok (.andVxVy (fieldX w) (fieldY w)) := by
  rw [decode_T8 ht]; unfold decodeGroup8; rw [hn]; rfl

theorem decode_xorVxVy (ht : fieldT w = 0x8#4) (hn : fieldN w = 0x3#4) :
    decode w = .ok (.xorVxVy (fieldX w) (fieldY w)) := by
  rw [decode_T8 ht]; unfold decodeGroup8; rw [hn]; rfl

theorem decode_addVxVy (ht : fieldT w = 0x8#4) (hn : fieldN w = 0x4#4) :
    decode w = .ok (.addVxVy (fieldX w) (fieldY w)) := by
  rw [decode_T8 ht]; unfold decodeGroup8; rw [hn]; rfl

theorem decode_subVxVy (ht : fieldT w = 0x8#4) (hn : fieldN w = 0x5#4) :
    decode w = .ok (.subVxVy (fieldX w) (fieldY w)) := by
  rw [decode_T8 ht]; unfold decodeGroup8; rw [hn]; rfl

theorem decode_shrVxVy (ht : fieldT w = 0x8#4) (hn : fieldN w = 0x6#4) :
    decode w = .ok (.shrVxVy (fieldX w) (fieldY w)) := by
  rw [decode_T8 ht]; unfold decodeGroup8; rw [hn]; rfl

theorem decode_subnVxVy (ht : fieldT w = 0x8#4) (hn : fieldN w = 0x7#4) :
    decode w = .ok (.subnVxVy (fieldX w) (fieldY w)) := by
  rw [decode_T8 ht]; unfold decodeGroup8; rw [hn]; rfl

theorem decode_shlVxVy (ht : fieldT w = 0x8#4) (hn : fieldN w = 0xE#4) :
    decode w = .ok (.shlVxVy (fieldX w) (fieldY w)) := by
  rw [decode_T8 ht]; unfold decodeGroup8; rw [hn]; rfl

theorem decode_seVxVy (ht : fieldT w = 0x5#4) (hn : fieldN w = 0x0#4) :
    decode w = .ok (.seVxVy (fieldX w) (fieldY w)) := by
  rw [decode_T5 ht]; unfold decodeGroup5; rw [if_pos hn]

theorem decode_sneVxVy (ht : fieldT w = 0x9#4) (hn : fieldN w = 0x0#4) :
    decode w = .ok (.sneVxVy (fieldX w) (fieldY w)) := by
  rw [decode_T9 ht]; unfold decodeGroup9; rw [if_pos hn]

theorem decode_skpVx (ht : fieldT w = 0xE#4) (hn : fieldNN w = 0x9E#8) :
    decode w = .ok (.skpVx (fieldX w)) := by
  rw [decode_TE ht]; unfold decodeGroupE; rw [hn]; rfl

theorem decode_sknpVx (ht : fieldT w = 0xE#4) (hn : fieldNN w = 0xA1#8) :
    decode w = .ok (.sknpVx (fieldX w)) := by
  rw [decode_TE ht]; unfold decodeGroupE; rw [hn]; rfl

theorem decode_ldVxDT (ht : fieldT w = 0xF#4) (hn : fieldNN w = 0x07#8) :
    decode w = .ok (.ldVxDT (fieldX w)) := by
  rw [decode_TF ht]; unfold decodeGroupF; rw [hn]; rfl

theorem decode_ldVxK (ht : fieldT w = 0xF#4) (hn : fieldNN w = 0x0A#8) :
    decode w = .ok (.ldVxK (fieldX w)) := by
  rw [decode_TF ht]; unfold decodeGroupF; rw [hn]; rfl

theorem decode_ldDTVx (ht : fieldT w = 0xF#4) (hn : fieldNN w = 0x15#8) :
    decode w = .ok (.ldDTVx (fieldX w)) := by
  rw [decode_TF ht]; unfold decodeGroupF; rw [hn]; rfl

theorem decode_ldSTVx (ht : fieldT w = 0xF#4) (hn : fieldNN w = 0x18#8) :
    decode w = .ok (.ldSTVx (fieldX w)) := by
  rw [decode_TF ht]; unfold decodeGroupF; rw [hn]; rfl

theorem decode_addIVx (ht : fieldT w = 0xF#4) (hn : fieldNN w = 0x1E#8) :
    decode w = .ok (.addIVx (fieldX w)) := by
  rw [decode_TF ht]; unfold decodeGroupF; rw [hn]; rfl

theorem decode_ldFVx (ht : fieldT w = 0xF#4) (hn : fieldNN w = 0x29#8) :
    decode w = .ok (.ldFVx (fieldX w)) := by
  rw [decode_TF ht]; unfold decodeGroupF; rw [hn]; rfl

theorem decode_ldBVx (ht : fieldT w = 0xF#4) (hn : fieldNN w = 0x33#8) :
    decode w = .ok (.ldBVx (fieldX w)) := by
  rw [decode_TF ht]; unfold decodeGroupF; rw [hn]; rfl

theorem decode_ldMemIVx (ht : fieldT w = 0xF#4) (hn : fieldNN w = 0x55#8) :
    decode w = .ok (.ldMemIVx (fieldX w)) := by
  rw [decode_TF ht]; unfold decodeGroupF; rw [hn]; rfl

theorem decode_ldVxMemI (ht : fieldT w = 0xF#4) (hn : fieldNN w = 0x65#8) :
    decode w = .ok (.ldVxMemI (fieldX w)) := by
  rw [decode_TF ht]; unfold decodeGroupF; rw [hn]; rfl

/-- The sixteen values of a nibble. -/
theorem nibble_cases (t : Nibble) :
    t = 0x0#4 ∨ t = 0x1#4 ∨ t = 0x2#4 ∨ t = 0x3#4 ∨ t = 0x4#4 ∨ t = 0x5#4 ∨ t = 0x6#4 ∨ t = 0x7#4 ∨
    t = 0x8#4 ∨ t = 0x9#4 ∨ t = 0xA#4 ∨ t = 0xB#4 ∨ t = 0xC#4 ∨ t = 0xD#4 ∨ t = 0xE#4 ∨ t = 0xF#4 := by
  revert t; decide

end

end Sys2Proof
end

