-- ==== Sys2Proof/Laws/Display.lean ====
section
/-! SUPPORT. What drawing a sprite does to each pixel and to the collision flag (41_display.md R101 to R104). -/

namespace Sys2Proof.Machine

theorem pixel_togglePixel (fb : Framebuffer) (x x' : Fin 64) (y y' : Fin 32) :
    pixel (togglePixel fb x y) x' y' = (pixel fb x' y' ^^ decide (x = x' ∧ y = y')) := by
  unfold pixel togglePixel
  by_cases hy : y = y'
  · subst hy
    have h1 : (1#64 <<< x.val).getLsbD x'.val = decide (x = x') := by
      rw [BitVec.getLsbD_shiftLeft]
      by_cases h : x = x'
      · subst h; simp
      · have hne : x.val ≠ x'.val := fun e => h (Fin.ext e)
        by_cases hlt : x'.val < x.val
        · simp [h, hlt]
        · have : x'.val - x.val ≠ 0 := by omega
          simp [h, this]
    simp only [Fin.getElem_fin, Vector.getElem_set_self, BitVec.getLsbD_xor, h1]
    simp
  · have : y.val ≠ y'.val := fun e => hy (Fin.ext e)
    simp [hy, Vector.getElem_set_ne, this]

@[simp] theorem pixel_clear (x : Fin 64) (y : Fin 32) : pixel clearFramebuffer x y = false := by
  simp [pixel, clearFramebuffer]

/-- Two framebuffers with the same pixels are equal. -/
theorem framebuffer_ext {f g : Framebuffer} (h : ∀ x y, pixel f x y = pixel g x y) : f = g := by
  apply Vector.ext
  intro y hy
  apply BitVec.eq_of_getLsbD_eq
  intro x hx
  exact h ⟨x, hx⟩ ⟨y, hy⟩

/-! ### Plotting a list of pixels -/

/-- Plot the pixels of a list in order. -/
def plots (d : Drawing) (ps : List (Fin 64 × Fin 32)) : Drawing := ps.foldl (fun d p => plot d p.1 p.2) d

theorem plots_pixel {d : Drawing} {ps : List (Fin 64 × Fin 32)} (h : ps.Nodup) (x : Fin 64) (y : Fin 32) :
    pixel (plots d ps).1 x y = (pixel d.1 x y ^^ decide ((x, y) ∈ ps)) := by
  induction ps generalizing d with
  | nil => simp [plots]
  | cons p ps ih =>
    obtain ⟨hp, hn⟩ := List.nodup_cons.mp h
    show pixel (plots (plot d p.1 p.2) ps).1 x y = _
    rw [ih hn]
    simp only [plot, pixel_togglePixel]
    by_cases hxy : p = (x, y)
    · subst hxy
      simp [hp]
    · have : ¬ (p.1 = x ∧ p.2 = y) := fun e => hxy (Prod.ext e.1 e.2)
      have hm : (x, y) ≠ p := fun e => hxy e.symm
      simp [this, hm]

theorem plots_collision {d : Drawing} {ps : List (Fin 64 × Fin 32)} (h : ps.Nodup) :
    (plots d ps).2 = (d.2 || ps.any fun p => pixel d.1 p.1 p.2) := by
  induction ps generalizing d with
  | nil => simp [plots]
  | cons p ps ih =>
    obtain ⟨hp, hn⟩ := List.nodup_cons.mp h
    show (plots (plot d p.1 p.2) ps).2 = _
    rw [ih hn]
    have : ps.any (fun q => pixel (togglePixel d.1 p.1 p.2) q.1 q.2) = ps.any fun q => pixel d.1 q.1 q.2 := by
      rw [Bool.eq_iff_iff]
      simp only [List.any_eq_true]
      refine exists_congr fun q => and_congr_right fun hq => ?_
      have : ¬ (p.1 = q.1 ∧ p.2 = q.2) := fun e => hp (Prod.ext e.1 e.2 ▸ hq)
      rw [pixel_togglePixel]; simp [this]
    simp [plot, this, Bool.or_assoc]

/-! ### A sprite as the list of its set pixels -/

/-- The pixels under the set bits of one sprite row. -/
def rowPixels (x0 y : Nat) (b : Byte) : List (Fin 64 × Fin 32) :=
  ((List.range 8).filter (spriteBit b)).map fun col => (wrapX (x0 + col), wrapY y)

/-- The pixels under the set bits of a sprite. -/
def spritePixels (m : Memory) (base x0 y0 n : Nat) : List (Fin 64 × Fin 32) :=
  (List.range n).flatMap fun row => rowPixels x0 (y0 + row) (m.read (base + row))

theorem drawRow_eq (x0 y : Nat) (b : Byte) (d : Drawing) : drawRow x0 y b d = plots d (rowPixels x0 y b) := by
  simp only [drawRow, plots, rowPixels, List.foldl_map, List.foldl_filter]

theorem drawSprite_eq (m : Memory) (base x0 y0 n : Nat) (fb : Framebuffer) :
    drawSprite m base x0 y0 n fb = plots (fb, false) (spritePixels m base x0 y0 n) := by
  simp only [drawSprite, spritePixels, plots, List.foldl_flatMap, drawRow_eq]

theorem mem_spritePixels {m : Memory} {base x0 y0 n : Nat} {x : Fin 64} {y : Fin 32} :
    (x, y) ∈ spritePixels m base x0 y0 n ↔
      ∃ row < n, ∃ col < 8, spriteBit (m.read (base + row)) col = true ∧ wrapX (x0 + col) = x ∧
        wrapY (y0 + row) = y := by
  simp only [spritePixels, rowPixels, List.mem_flatMap, List.mem_range, List.mem_map, List.mem_filter,
    Prod.mk.injEq]
  constructor
  · rintro ⟨row, hr, col, ⟨hc, hb⟩, hx, hy⟩
    exact ⟨row, hr, col, hc, hb, hx, hy⟩
  · rintro ⟨row, hr, col, hc, hb, hx, hy⟩
    exact ⟨row, hr, col, ⟨hc, hb⟩, hx, hy⟩

theorem wrapX_inj {x0 c c' : Nat} (hc : c < 64) (hc' : c' < 64) (h : wrapX (x0 + c) = wrapX (x0 + c')) : c = c' := by
  have : (x0 + c) % 64 = (x0 + c') % 64 := congrArg Fin.val h
  omega

theorem wrapY_inj {y0 r r' : Nat} (hr : r < 32) (hr' : r' < 32) (h : wrapY (y0 + r) = wrapY (y0 + r')) : r = r' := by
  have : (y0 + r) % 32 = (y0 + r') % 32 := congrArg Fin.val h
  omega

theorem rowPixels_nodup (x0 y : Nat) (b : Byte) : (rowPixels x0 y b).Nodup := by
  refine List.Nodup.map_on ?_ (List.nodup_range.filter _)
  intro c hc c' hc' h
  simp only [List.mem_filter, List.mem_range] at hc hc'
  exact wrapX_inj (by omega) (by omega) (Prod.mk.inj h).1

/-- No pixel is addressed twice in one DXYN (41_display.md R104). -/
theorem spritePixels_nodup {m : Memory} {base x0 y0 n : Nat} (hn : n ≤ 32) :
    (spritePixels m base x0 y0 n).Nodup := by
  refine List.nodup_flatMap.mpr ⟨fun row _ => rowPixels_nodup _ _ _, ?_⟩
  refine List.Pairwise.imp_of_mem ?_ (List.nodup_range (n := n))
  intro r r' hr hr' hne
  rw [List.mem_range] at hr hr'
  intro p hp hp'
  simp only [rowPixels, List.mem_map] at hp hp'
  obtain ⟨_, _, rfl⟩ := hp
  obtain ⟨_, _, h⟩ := hp'
  exact hne (wrapY_inj (by omega) (by omega) (Prod.mk.inj h).2.symm)

/-- Drawing a sprite toggles exactly the pixels under its set bits. -/
theorem drawSprite_pixel {m : Memory} {base x0 y0 n : Nat} (fb : Framebuffer) (hn : n ≤ 32) (x : Fin 64)
    (y : Fin 32) :
    pixel (drawSprite m base x0 y0 n fb).1 x y =
      (pixel fb x y ^^ decide ((x, y) ∈ spritePixels m base x0 y0 n)) := by
  rw [drawSprite_eq, plots_pixel (spritePixels_nodup hn)]

/-- Drawing a sprite collides exactly when a set bit lies on a pixel that was set. -/
theorem drawSprite_collision {m : Memory} {base x0 y0 n : Nat} (fb : Framebuffer) (hn : n ≤ 32) :
    (drawSprite m base x0 y0 n fb).2 = true ↔
      ∃ p ∈ spritePixels m base x0 y0 n, pixel fb p.1 p.2 = true := by
  rw [drawSprite_eq, plots_collision (spritePixels_nodup hn)]
  simp

end Sys2Proof.Machine
end

