-- ==== Sys2Proof/Laws/Memory.lean ====
section
/-! SUPPORT. Reading after writing, and that every write keeps the canonical form. -/

namespace Sys2Proof.Machine.Memory

/-! ### One byte -/

theorem wfFrom_mono {lo lo' : Nat} {m : Memory} (h : wfFrom lo m = true) (hl : lo' ≤ lo) :
    wfFrom lo' m = true := by
  cases m with
  | nil => rfl
  | cons c m =>
    simp only [wfFrom, Bool.and_eq_true, decide_eq_true_eq] at h ⊢
    exact ⟨⟨⟨by omega, h.1.1.2⟩, h.1.2⟩, h.2⟩

/-- A canonical memory from `lo` on lists nothing below `lo`. -/
theorem read_below {lo a : Nat} {m : Memory} (h : wfFrom lo m = true) (ha : a < lo) :
    read m a = unlisted a := by
  induction m generalizing lo with
  | nil => rfl
  | cons c m ih =>
    simp only [wfFrom, Bool.and_eq_true, decide_eq_true_eq] at h
    have hk : c.1 ≠ a := by omega
    simp [read, hk, ih h.2 (by omega)]

theorem read_cons_same {a : Nat} {m : Memory} (v : Byte) (h : read m a = unlisted a) :
    read (cons a v m) a = v := by
  unfold cons
  split
  · next e => rw [h, e]
  · simp [read]

theorem read_cons_other {a b : Nat} {m : Memory} (v : Byte) (hab : a ≠ b) :
    read (cons a v m) b = read m b := by
  unfold cons
  split <;> simp [read, hab]

theorem wfFrom_cons {lo a : Nat} {m : Memory} (v : Byte) (h : wfFrom (a + 1) m = true) (hl : lo ≤ a)
    (ha : a < 0x1000) : wfFrom lo (cons a v m) = true := by
  unfold cons
  split
  · exact wfFrom_mono h (by omega)
  · next hv => simp [wfFrom, h, hl, ha, hv]

theorem read_write_same_from {lo : Nat} {m : Memory} (a : Nat) (v : Byte) (h : wfFrom lo m = true) :
    read (write m a v) a = v := by
  induction m generalizing lo with
  | nil => exact read_cons_same v rfl
  | cons c m ih =>
    simp only [wfFrom, Bool.and_eq_true, decide_eq_true_eq] at h
    simp only [write]
    split
    · next hlt =>
      refine read_cons_same v ?_
      have hk : c.1 ≠ a := by omega
      simp [read, hk, read_below h.2 (a := a) (by omega)]
    · split
      · next heq => exact read_cons_same v (read_below h.2 (by omega))
      · next hne =>
        have hk : c.1 ≠ a := fun e => hne e.symm
        simp [read, hk, ih h.2]

/-- A read after a write to the same address gives the value written. -/
theorem read_write_same {m : Memory} (a : Nat) (v : Byte) (h : wf m = true) : read (write m a v) a = v :=
  read_write_same_from a v h

/-- A write leaves every other address alone, whatever the list. -/
theorem read_write_other {m : Memory} {a b : Nat} (v : Byte) (hab : a ≠ b) :
    read (write m a v) b = read m b := by
  induction m with
  | nil => exact read_cons_other v hab
  | cons c m ih =>
    simp only [write]
    split
    · exact read_cons_other v hab
    · split
      · next heq =>
        have hk : c.1 ≠ b := fun e => hab (heq.trans e)
        simp [read_cons_other v hab, read, hk]
      · simp [read, ih]

theorem wfFrom_write {lo a : Nat} {m : Memory} (v : Byte) (h : wfFrom lo m = true) (hl : lo ≤ a)
    (ha : a < 0x1000) : wfFrom lo (write m a v) = true := by
  induction m generalizing lo with
  | nil => exact wfFrom_cons v rfl hl ha
  | cons c m ih =>
    simp only [wfFrom, Bool.and_eq_true, decide_eq_true_eq] at h
    simp only [write]
    split
    · refine wfFrom_cons v ?_ hl ha
      simp only [wfFrom, Bool.and_eq_true, decide_eq_true_eq]
      exact ⟨⟨⟨by omega, h.1.1.2⟩, h.1.2⟩, h.2⟩
    · split
      · next heq => exact wfFrom_cons v (by rw [heq]; exact h.2) hl ha
      · simp only [wfFrom, Bool.and_eq_true, decide_eq_true_eq]
        exact ⟨h.1, ih h.2 (by omega)⟩

/-- A write inside the address space keeps the canonical form. -/
theorem wf_write {m : Memory} {a : Nat} (v : Byte) (h : wf m = true) (ha : a < 0x1000) :
    wf (write m a v) = true := wfFrom_write v h (Nat.zero_le _) ha

/-! ### Equal reads, equal memories -/

/-- Two canonical memories that read alike are the same list. -/
theorem eq_of_read_eq_from {lo : Nat} {m m' : Memory} (h : wfFrom lo m = true) (h' : wfFrom lo m' = true)
    (e : ∀ a, read m a = read m' a) : m = m' := by
  induction m generalizing lo m' with
  | nil =>
    cases m' with
    | nil => rfl
    | cons c' m' =>
      simp only [wfFrom, Bool.and_eq_true, decide_eq_true_eq, bne_iff_ne] at h'
      have := e c'.1
      simp only [read, if_true] at this
      exact absurd this.symm h'.1.2
  | cons c m ih =>
    obtain ⟨k, v⟩ := c
    cases m' with
    | nil =>
      simp only [wfFrom, Bool.and_eq_true, decide_eq_true_eq, bne_iff_ne] at h
      have := e k
      simp only [read, if_true] at this
      exact absurd this h.1.2
    | cons c' m' =>
      obtain ⟨k', v'⟩ := c'
      have hk := e k
      have hk' := e k'
      simp only [wfFrom, Bool.and_eq_true, decide_eq_true_eq, bne_iff_ne] at h h'
      have heq : k = k' := by
        rcases Nat.lt_trichotomy k k' with hlt | heq | hgt
        · have hne : k' ≠ k := by omega
          simp only [read, if_true, hne, if_false, read_below h'.2 (a := k) (by omega)] at hk
          exact absurd hk h.1.2
        · exact heq
        · have hne : k ≠ k' := by omega
          simp only [read, if_true, hne, if_false, read_below h.2 (a := k') (by omega)] at hk'
          exact absurd hk'.symm h'.1.2
      subst heq
      simp only [read, if_true] at hk
      subst hk
      congr 1
      refine ih h.2 h'.2 fun a => ?_
      by_cases ha : k = a
      · subst ha
        rw [read_below h.2 (by omega), read_below h'.2 (by omega)]
      · have := e a
        simpa [read, ha] using this

/-- Two canonical memories that read alike are the same list. -/
theorem eq_of_read_eq {m m' : Memory} (h : wf m = true) (h' : wf m' = true)
    (e : ∀ a, read m a = read m' a) : m = m' := eq_of_read_eq_from h h' e

/-! ### A block of bytes -/

theorem wf_writeBlock {m : Memory} {a : Nat} (bs : List Byte) (h : wf m = true)
    (ha : a + bs.length ≤ 0x1000) : wf (writeBlock m a bs) = true := by
  induction bs generalizing m a with
  | nil => exact h
  | cons v vs ih =>
    simp only [List.length_cons] at ha
    exact ih (wf_write v h (by omega)) (by omega)

/-- A block write leaves every address outside the block alone. -/
theorem read_writeBlock_outside {m : Memory} {a b : Nat} (bs : List Byte)
    (hb : b < a ∨ a + bs.length ≤ b) : read (writeBlock m a bs) b = read m b := by
  induction bs generalizing m a with
  | nil => rfl
  | cons v vs ih =>
    simp only [List.length_cons] at hb
    rw [writeBlock, ih (by omega), read_write_other v (by omega)]

/-- A read inside a written block gives the byte written there. -/
theorem read_writeBlock_inside {m : Memory} {a k : Nat} (bs : List Byte) (h : wf m = true)
    (ha : a + bs.length ≤ 0x1000) (hk : k < bs.length) :
    read (writeBlock m a bs) (a + k) = bs[k] := by
  induction bs generalizing m a k with
  | nil => exact absurd hk (by simp)
  | cons v vs ih =>
    simp only [List.length_cons] at ha hk
    have hw := wf_write v h (a := a) (by omega)
    cases k with
    | zero =>
      rw [writeBlock, read_writeBlock_outside vs (by omega)]
      simpa using read_write_same a v h
    | succ k =>
      have : read (writeBlock (write m a v) (a + 1) vs) (a + 1 + k) = vs[k] := ih hw (by omega) (by omega)
      rw [writeBlock, show a + (k + 1) = a + 1 + k by omega, this]
      simp

end Sys2Proof.Machine.Memory
end

