-- ==== Sys2Proof/Laws/State.lean ====
section
/-! SUPPORT. Each field after each update of the state, and what the derived updates are. -/

namespace Sys2Proof.Machine

namespace State

variable (s : State)

/-! ### The derived updates as the basic ones -/

@[simp] theorem advance_eq : s.advance = s.setPc (s.pc + 2) := rfl
@[simp] theorem skipUnknown_eq : s.skipUnknown = s.setPc (s.pc + 2) := rfl
@[simp] theorem skipIf_eq (c : Bool) : s.skipIf c = s.setPc (if c then s.pc + 4 else s.pc + 2) := by
  cases c <;> rfl
@[simp] theorem setResultAndFlag_eq (x : Reg) (r f : Byte) :
    s.setResultAndFlag x r f = (s.setV x r).setV VF f := rfl
@[simp] theorem raiseIn_eq (i : Instr) (c : FatalCode) (a : Word) :
    s.raiseIn i c a = s.raiseFatal ((encode i).setWidth 17) c a := rfl
@[simp] theorem raiseAddress_eq (i : Instr) (b : Nat) :
    s.raiseAddress i b = s.raiseFatal ((encode i).setWidth 17) .addressOutOfRange (firstOutOfRange b) := rfl
@[simp] theorem raiseKey_eq (i : Instr) (v : Byte) :
    s.raiseKey i v = s.raiseFatal ((encode i).setWidth 17) .keyIndexOutOfRange (zextByte v) := rfl
@[simp] theorem raiseFetch_eq :
    s.raiseFetch = s.raiseFatal noneOpcode .addressOutOfRange (firstOutOfRange s.pc.toNat) := rfl

/-! ### setV -/

@[simp] theorem setV_mem (x : Reg) (v : Byte) : (s.setV x v).mem = s.mem := rfl
@[simp] theorem setV_V (x : Reg) (v : Byte) : (s.setV x v).V = s.V.set x v := rfl
@[simp] theorem setV_I (x : Reg) (v : Byte) : (s.setV x v).I = s.I := rfl
@[simp] theorem setV_pc (x : Reg) (v : Byte) : (s.setV x v).pc = s.pc := rfl
@[simp] theorem setV_sp (x : Reg) (v : Byte) : (s.setV x v).sp = s.sp := rfl
@[simp] theorem setV_stack (x : Reg) (v : Byte) : (s.setV x v).stack = s.stack := rfl
@[simp] theorem setV_fb (x : Reg) (v : Byte) : (s.setV x v).fb = s.fb := rfl
@[simp] theorem setV_delay (x : Reg) (v : Byte) : (s.setV x v).delay = s.delay := rfl
@[simp] theorem setV_sound (x : Reg) (v : Byte) : (s.setV x v).sound = s.sound := rfl
@[simp] theorem setV_key (x : Reg) (v : Byte) : (s.setV x v).key = s.key := rfl
@[simp] theorem setV_halted (x : Reg) (v : Byte) : (s.setV x v).halted = s.halted := rfl
@[simp] theorem setV_fault (x : Reg) (v : Byte) : (s.setV x v).fault = s.fault := rfl
@[simp] theorem setV_draw (x : Reg) (v : Byte) : (s.setV x v).draw = s.draw := rfl
@[simp] theorem setV_drawCount (x : Reg) (v : Byte) : (s.setV x v).drawCount = s.drawCount := rfl

/-! ### setVUpTo -/

@[simp] theorem setVUpTo_mem (x : Reg) (f : Nat → Byte) : (s.setVUpTo x f).mem = s.mem := rfl
@[simp] theorem setVUpTo_V (x : Reg) (f : Nat → Byte) : (s.setVUpTo x f).V = Vector.ofFn fun k : Fin 16 => if k ≤ x then f k else s.V[k] := rfl
@[simp] theorem setVUpTo_I (x : Reg) (f : Nat → Byte) : (s.setVUpTo x f).I = s.I := rfl
@[simp] theorem setVUpTo_pc (x : Reg) (f : Nat → Byte) : (s.setVUpTo x f).pc = s.pc := rfl
@[simp] theorem setVUpTo_sp (x : Reg) (f : Nat → Byte) : (s.setVUpTo x f).sp = s.sp := rfl
@[simp] theorem setVUpTo_stack (x : Reg) (f : Nat → Byte) : (s.setVUpTo x f).stack = s.stack := rfl
@[simp] theorem setVUpTo_fb (x : Reg) (f : Nat → Byte) : (s.setVUpTo x f).fb = s.fb := rfl
@[simp] theorem setVUpTo_delay (x : Reg) (f : Nat → Byte) : (s.setVUpTo x f).delay = s.delay := rfl
@[simp] theorem setVUpTo_sound (x : Reg) (f : Nat → Byte) : (s.setVUpTo x f).sound = s.sound := rfl
@[simp] theorem setVUpTo_key (x : Reg) (f : Nat → Byte) : (s.setVUpTo x f).key = s.key := rfl
@[simp] theorem setVUpTo_halted (x : Reg) (f : Nat → Byte) : (s.setVUpTo x f).halted = s.halted := rfl
@[simp] theorem setVUpTo_fault (x : Reg) (f : Nat → Byte) : (s.setVUpTo x f).fault = s.fault := rfl
@[simp] theorem setVUpTo_draw (x : Reg) (f : Nat → Byte) : (s.setVUpTo x f).draw = s.draw := rfl
@[simp] theorem setVUpTo_drawCount (x : Reg) (f : Nat → Byte) : (s.setVUpTo x f).drawCount = s.drawCount := rfl

/-! ### setI -/

@[simp] theorem setI_mem (v : Word) : (s.setI v).mem = s.mem := rfl
@[simp] theorem setI_V (v : Word) : (s.setI v).V = s.V := rfl
@[simp] theorem setI_I (v : Word) : (s.setI v).I = v := rfl
@[simp] theorem setI_pc (v : Word) : (s.setI v).pc = s.pc := rfl
@[simp] theorem setI_sp (v : Word) : (s.setI v).sp = s.sp := rfl
@[simp] theorem setI_stack (v : Word) : (s.setI v).stack = s.stack := rfl
@[simp] theorem setI_fb (v : Word) : (s.setI v).fb = s.fb := rfl
@[simp] theorem setI_delay (v : Word) : (s.setI v).delay = s.delay := rfl
@[simp] theorem setI_sound (v : Word) : (s.setI v).sound = s.sound := rfl
@[simp] theorem setI_key (v : Word) : (s.setI v).key = s.key := rfl
@[simp] theorem setI_halted (v : Word) : (s.setI v).halted = s.halted := rfl
@[simp] theorem setI_fault (v : Word) : (s.setI v).fault = s.fault := rfl
@[simp] theorem setI_draw (v : Word) : (s.setI v).draw = s.draw := rfl
@[simp] theorem setI_drawCount (v : Word) : (s.setI v).drawCount = s.drawCount := rfl

/-! ### setPc -/

@[simp] theorem setPc_mem (v : Word) : (s.setPc v).mem = s.mem := rfl
@[simp] theorem setPc_V (v : Word) : (s.setPc v).V = s.V := rfl
@[simp] theorem setPc_I (v : Word) : (s.setPc v).I = s.I := rfl
@[simp] theorem setPc_pc (v : Word) : (s.setPc v).pc = v := rfl
@[simp] theorem setPc_sp (v : Word) : (s.setPc v).sp = s.sp := rfl
@[simp] theorem setPc_stack (v : Word) : (s.setPc v).stack = s.stack := rfl
@[simp] theorem setPc_fb (v : Word) : (s.setPc v).fb = s.fb := rfl
@[simp] theorem setPc_delay (v : Word) : (s.setPc v).delay = s.delay := rfl
@[simp] theorem setPc_sound (v : Word) : (s.setPc v).sound = s.sound := rfl
@[simp] theorem setPc_key (v : Word) : (s.setPc v).key = s.key := rfl
@[simp] theorem setPc_halted (v : Word) : (s.setPc v).halted = s.halted := rfl
@[simp] theorem setPc_fault (v : Word) : (s.setPc v).fault = s.fault := rfl
@[simp] theorem setPc_draw (v : Word) : (s.setPc v).draw = s.draw := rfl
@[simp] theorem setPc_drawCount (v : Word) : (s.setPc v).drawCount = s.drawCount := rfl

/-! ### storeBytes -/

@[simp] theorem storeBytes_mem (a : Nat) (bs : List Byte) : (s.storeBytes a bs).mem = Memory.writeBlock s.mem a bs := rfl
@[simp] theorem storeBytes_V (a : Nat) (bs : List Byte) : (s.storeBytes a bs).V = s.V := rfl
@[simp] theorem storeBytes_I (a : Nat) (bs : List Byte) : (s.storeBytes a bs).I = s.I := rfl
@[simp] theorem storeBytes_pc (a : Nat) (bs : List Byte) : (s.storeBytes a bs).pc = s.pc := rfl
@[simp] theorem storeBytes_sp (a : Nat) (bs : List Byte) : (s.storeBytes a bs).sp = s.sp := rfl
@[simp] theorem storeBytes_stack (a : Nat) (bs : List Byte) : (s.storeBytes a bs).stack = s.stack := rfl
@[simp] theorem storeBytes_fb (a : Nat) (bs : List Byte) : (s.storeBytes a bs).fb = s.fb := rfl
@[simp] theorem storeBytes_delay (a : Nat) (bs : List Byte) : (s.storeBytes a bs).delay = s.delay := rfl
@[simp] theorem storeBytes_sound (a : Nat) (bs : List Byte) : (s.storeBytes a bs).sound = s.sound := rfl
@[simp] theorem storeBytes_key (a : Nat) (bs : List Byte) : (s.storeBytes a bs).key = s.key := rfl
@[simp] theorem storeBytes_halted (a : Nat) (bs : List Byte) : (s.storeBytes a bs).halted = s.halted := rfl
@[simp] theorem storeBytes_fault (a : Nat) (bs : List Byte) : (s.storeBytes a bs).fault = s.fault := rfl
@[simp] theorem storeBytes_draw (a : Nat) (bs : List Byte) : (s.storeBytes a bs).draw = s.draw := rfl
@[simp] theorem storeBytes_drawCount (a : Nat) (bs : List Byte) : (s.storeBytes a bs).drawCount = s.drawCount := rfl

/-! ### setDelay -/

@[simp] theorem setDelay_mem (v : Byte) : (s.setDelay v).mem = s.mem := rfl
@[simp] theorem setDelay_V (v : Byte) : (s.setDelay v).V = s.V := rfl
@[simp] theorem setDelay_I (v : Byte) : (s.setDelay v).I = s.I := rfl
@[simp] theorem setDelay_pc (v : Byte) : (s.setDelay v).pc = s.pc := rfl
@[simp] theorem setDelay_sp (v : Byte) : (s.setDelay v).sp = s.sp := rfl
@[simp] theorem setDelay_stack (v : Byte) : (s.setDelay v).stack = s.stack := rfl
@[simp] theorem setDelay_fb (v : Byte) : (s.setDelay v).fb = s.fb := rfl
@[simp] theorem setDelay_delay (v : Byte) : (s.setDelay v).delay = v := rfl
@[simp] theorem setDelay_sound (v : Byte) : (s.setDelay v).sound = s.sound := rfl
@[simp] theorem setDelay_key (v : Byte) : (s.setDelay v).key = s.key := rfl
@[simp] theorem setDelay_halted (v : Byte) : (s.setDelay v).halted = s.halted := rfl
@[simp] theorem setDelay_fault (v : Byte) : (s.setDelay v).fault = s.fault := rfl
@[simp] theorem setDelay_draw (v : Byte) : (s.setDelay v).draw = s.draw := rfl
@[simp] theorem setDelay_drawCount (v : Byte) : (s.setDelay v).drawCount = s.drawCount := rfl

/-! ### setSound -/

@[simp] theorem setSound_mem (v : Byte) : (s.setSound v).mem = s.mem := rfl
@[simp] theorem setSound_V (v : Byte) : (s.setSound v).V = s.V := rfl
@[simp] theorem setSound_I (v : Byte) : (s.setSound v).I = s.I := rfl
@[simp] theorem setSound_pc (v : Byte) : (s.setSound v).pc = s.pc := rfl
@[simp] theorem setSound_sp (v : Byte) : (s.setSound v).sp = s.sp := rfl
@[simp] theorem setSound_stack (v : Byte) : (s.setSound v).stack = s.stack := rfl
@[simp] theorem setSound_fb (v : Byte) : (s.setSound v).fb = s.fb := rfl
@[simp] theorem setSound_delay (v : Byte) : (s.setSound v).delay = s.delay := rfl
@[simp] theorem setSound_sound (v : Byte) : (s.setSound v).sound = v := rfl
@[simp] theorem setSound_key (v : Byte) : (s.setSound v).key = s.key := rfl
@[simp] theorem setSound_halted (v : Byte) : (s.setSound v).halted = s.halted := rfl
@[simp] theorem setSound_fault (v : Byte) : (s.setSound v).fault = s.fault := rfl
@[simp] theorem setSound_draw (v : Byte) : (s.setSound v).draw = s.draw := rfl
@[simp] theorem setSound_drawCount (v : Byte) : (s.setSound v).drawCount = s.drawCount := rfl

/-! ### setFb -/

@[simp] theorem setFb_mem (f : Framebuffer) : (s.setFb f).mem = s.mem := rfl
@[simp] theorem setFb_V (f : Framebuffer) : (s.setFb f).V = s.V := rfl
@[simp] theorem setFb_I (f : Framebuffer) : (s.setFb f).I = s.I := rfl
@[simp] theorem setFb_pc (f : Framebuffer) : (s.setFb f).pc = s.pc := rfl
@[simp] theorem setFb_sp (f : Framebuffer) : (s.setFb f).sp = s.sp := rfl
@[simp] theorem setFb_stack (f : Framebuffer) : (s.setFb f).stack = s.stack := rfl
@[simp] theorem setFb_fb (f : Framebuffer) : (s.setFb f).fb = f := rfl
@[simp] theorem setFb_delay (f : Framebuffer) : (s.setFb f).delay = s.delay := rfl
@[simp] theorem setFb_sound (f : Framebuffer) : (s.setFb f).sound = s.sound := rfl
@[simp] theorem setFb_key (f : Framebuffer) : (s.setFb f).key = s.key := rfl
@[simp] theorem setFb_halted (f : Framebuffer) : (s.setFb f).halted = s.halted := rfl
@[simp] theorem setFb_fault (f : Framebuffer) : (s.setFb f).fault = s.fault := rfl
@[simp] theorem setFb_draw (f : Framebuffer) : (s.setFb f).draw = s.draw := rfl
@[simp] theorem setFb_drawCount (f : Framebuffer) : (s.setFb f).drawCount = s.drawCount := rfl

/-! ### consumeDraw -/

@[simp] theorem consumeDraw_mem : s.consumeDraw.mem = s.mem := rfl
@[simp] theorem consumeDraw_V : s.consumeDraw.V = s.V := rfl
@[simp] theorem consumeDraw_I : s.consumeDraw.I = s.I := rfl
@[simp] theorem consumeDraw_pc : s.consumeDraw.pc = s.pc := rfl
@[simp] theorem consumeDraw_sp : s.consumeDraw.sp = s.sp := rfl
@[simp] theorem consumeDraw_stack : s.consumeDraw.stack = s.stack := rfl
@[simp] theorem consumeDraw_fb : s.consumeDraw.fb = s.fb := rfl
@[simp] theorem consumeDraw_delay : s.consumeDraw.delay = s.delay := rfl
@[simp] theorem consumeDraw_sound : s.consumeDraw.sound = s.sound := rfl
@[simp] theorem consumeDraw_key : s.consumeDraw.key = s.key := rfl
@[simp] theorem consumeDraw_halted : s.consumeDraw.halted = s.halted := rfl
@[simp] theorem consumeDraw_fault : s.consumeDraw.fault = s.fault := rfl
@[simp] theorem consumeDraw_draw : s.consumeDraw.draw = none := rfl
@[simp] theorem consumeDraw_drawCount : s.consumeDraw.drawCount = s.drawCount + 1 := rfl

/-! ### withDraw -/

@[simp] theorem withDraw_mem (r : Option Byte) : (s.withDraw r).mem = s.mem := rfl
@[simp] theorem withDraw_V (r : Option Byte) : (s.withDraw r).V = s.V := rfl
@[simp] theorem withDraw_I (r : Option Byte) : (s.withDraw r).I = s.I := rfl
@[simp] theorem withDraw_pc (r : Option Byte) : (s.withDraw r).pc = s.pc := rfl
@[simp] theorem withDraw_sp (r : Option Byte) : (s.withDraw r).sp = s.sp := rfl
@[simp] theorem withDraw_stack (r : Option Byte) : (s.withDraw r).stack = s.stack := rfl
@[simp] theorem withDraw_fb (r : Option Byte) : (s.withDraw r).fb = s.fb := rfl
@[simp] theorem withDraw_delay (r : Option Byte) : (s.withDraw r).delay = s.delay := rfl
@[simp] theorem withDraw_sound (r : Option Byte) : (s.withDraw r).sound = s.sound := rfl
@[simp] theorem withDraw_key (r : Option Byte) : (s.withDraw r).key = s.key := rfl
@[simp] theorem withDraw_halted (r : Option Byte) : (s.withDraw r).halted = s.halted := rfl
@[simp] theorem withDraw_fault (r : Option Byte) : (s.withDraw r).fault = s.fault := rfl
@[simp] theorem withDraw_draw (r : Option Byte) : (s.withDraw r).draw = r := rfl
@[simp] theorem withDraw_drawCount (r : Option Byte) : (s.withDraw r).drawCount = s.drawCount := rfl

/-! ### raiseFatal -/

@[simp] theorem raiseFatal_mem (op : BitVec 17) (c : FatalCode) (a : Word) : (s.raiseFatal op c a).mem = s.mem := rfl
@[simp] theorem raiseFatal_V (op : BitVec 17) (c : FatalCode) (a : Word) : (s.raiseFatal op c a).V = s.V := rfl
@[simp] theorem raiseFatal_I (op : BitVec 17) (c : FatalCode) (a : Word) : (s.raiseFatal op c a).I = s.I := rfl
@[simp] theorem raiseFatal_pc (op : BitVec 17) (c : FatalCode) (a : Word) : (s.raiseFatal op c a).pc = s.pc := rfl
@[simp] theorem raiseFatal_sp (op : BitVec 17) (c : FatalCode) (a : Word) : (s.raiseFatal op c a).sp = s.sp := rfl
@[simp] theorem raiseFatal_stack (op : BitVec 17) (c : FatalCode) (a : Word) : (s.raiseFatal op c a).stack = s.stack := rfl
@[simp] theorem raiseFatal_fb (op : BitVec 17) (c : FatalCode) (a : Word) : (s.raiseFatal op c a).fb = s.fb := rfl
@[simp] theorem raiseFatal_delay (op : BitVec 17) (c : FatalCode) (a : Word) : (s.raiseFatal op c a).delay = s.delay := rfl
@[simp] theorem raiseFatal_sound (op : BitVec 17) (c : FatalCode) (a : Word) : (s.raiseFatal op c a).sound = s.sound := rfl
@[simp] theorem raiseFatal_key (op : BitVec 17) (c : FatalCode) (a : Word) : (s.raiseFatal op c a).key = s.key := rfl
@[simp] theorem raiseFatal_halted (op : BitVec 17) (c : FatalCode) (a : Word) : (s.raiseFatal op c a).halted = true := rfl
@[simp] theorem raiseFatal_fault (op : BitVec 17) (c : FatalCode) (a : Word) : (s.raiseFatal op c a).fault = { code := c, pc := s.pc, opcode := op, addr := a } := rfl
@[simp] theorem raiseFatal_draw (op : BitVec 17) (c : FatalCode) (a : Word) : (s.raiseFatal op c a).draw = s.draw := rfl
@[simp] theorem raiseFatal_drawCount (op : BitVec 17) (c : FatalCode) (a : Word) : (s.raiseFatal op c a).drawCount = s.drawCount := rfl

end State

/-! ### The host's operations on the timers and the keypad -/

section
variable (s : State) (k : Fin 16) (b : Bool)

@[simp] theorem tick_mem : (tick s).mem = s.mem := rfl
@[simp] theorem tick_V : (tick s).V = s.V := rfl
@[simp] theorem tick_I : (tick s).I = s.I := rfl
@[simp] theorem tick_pc : (tick s).pc = s.pc := rfl
@[simp] theorem tick_sp : (tick s).sp = s.sp := rfl
@[simp] theorem tick_stack : (tick s).stack = s.stack := rfl
@[simp] theorem tick_fb : (tick s).fb = s.fb := rfl
@[simp] theorem tick_delay : (tick s).delay = countDown s.delay := rfl
@[simp] theorem tick_sound : (tick s).sound = countDown s.sound := rfl
@[simp] theorem tick_key : (tick s).key = s.key := rfl
@[simp] theorem tick_halted : (tick s).halted = s.halted := rfl
@[simp] theorem tick_fault : (tick s).fault = s.fault := rfl
@[simp] theorem tick_draw : (tick s).draw = s.draw := rfl
@[simp] theorem tick_drawCount : (tick s).drawCount = s.drawCount := rfl

@[simp] theorem setKey_mem : (setKey k b s).mem = s.mem := rfl
@[simp] theorem setKey_V : (setKey k b s).V = s.V := rfl
@[simp] theorem setKey_I : (setKey k b s).I = s.I := rfl
@[simp] theorem setKey_pc : (setKey k b s).pc = s.pc := rfl
@[simp] theorem setKey_sp : (setKey k b s).sp = s.sp := rfl
@[simp] theorem setKey_stack : (setKey k b s).stack = s.stack := rfl
@[simp] theorem setKey_fb : (setKey k b s).fb = s.fb := rfl
@[simp] theorem setKey_delay : (setKey k b s).delay = s.delay := rfl
@[simp] theorem setKey_sound : (setKey k b s).sound = s.sound := rfl
@[simp] theorem setKey_key : (setKey k b s).key = s.key.set k b := rfl
@[simp] theorem setKey_halted : (setKey k b s).halted = s.halted := rfl
@[simp] theorem setKey_fault : (setKey k b s).fault = s.fault := rfl
@[simp] theorem setKey_draw : (setKey k b s).draw = s.draw := rfl
@[simp] theorem setKey_drawCount : (setKey k b s).drawCount = s.drawCount := rfl

end

/-! ### Reading a register -/

section
variable (s : State)

theorem getV_eq (x : Reg) : s.getV x = s.V[x] := rfl

@[simp] theorem getV_setPc (v : Word) (x : Reg) : (s.setPc v).getV x = s.getV x := rfl

@[simp] theorem getV_setV_same (x : Reg) (v : Byte) : (s.setV x v).getV x = v := by
  simp [State.getV]

theorem getV_setV_other {x y : Reg} (v : Byte) (h : x ≠ y) : (s.setV x v).getV y = s.getV y := by
  have : x.val ≠ y.val := fun e => h (Fin.ext e)
  simp [State.getV, Vector.getElem_set_ne, this]

/-- A register after a write of any register. -/
theorem getV_setV (x y : Reg) (v : Byte) : (s.setV x v).getV y = if x = y then v else s.getV y := by
  split
  · next h => subst h; simp
  · next h => exact getV_setV_other s v h

theorem getV_setVUpTo (x y : Reg) (f : Nat → Byte) :
    (s.setVUpTo x f).getV y = if y ≤ x then f y else s.getV y := by
  simp [State.getV]

end

end Sys2Proof.Machine
end

