-- ==== Sys2Proof/Laws/Ops.lean ====
section
/-! SUPPORT. What each shared operation over registers, stack, keypad and addresses does. -/

namespace Sys2Proof.Machine

/-! ### Ranges -/

theorem inRange_iff (a n : Nat) : inRange a n = true ↔ n = 0 ∨ a + n ≤ 0x1000 := by
  simp only [inRange, Bool.or_eq_true, beq_iff_eq, decide_eq_true_eq]
  omega

theorem inRange_false_iff (a n : Nat) : inRange a n = false ↔ n ≠ 0 ∧ 0x1000 < a + n := by
  rw [← Bool.not_eq_true, inRange_iff]
  omega

/-- The reported address lies outside memory and, with a 16-bit base, is exact. -/
theorem firstOutOfRange_toNat {a : Nat} (h : a < 0x10000) : (firstOutOfRange a).toNat = max a 0x1000 := by
  simp only [firstOutOfRange, BitVec.toNat_ofNat]
  omega

/-! ### Operands -/

@[simp] theorem zextAddr_toNat (nnn : Addr12) : (zextAddr nnn).toNat = nnn.toNat := by
  have := nnn.isLt
  simp only [zextAddr, BitVec.toNat_setWidth]
  omega

@[simp] theorem zextByte_toNat (v : Byte) : (zextByte v).toNat = v.toNat := by
  have := v.isLt
  simp only [zextByte, BitVec.toNat_setWidth]
  omega

theorem computedTarget_toNat (s : State) (nnn : Addr12) :
    (computedTarget s nnn).toNat = nnn.toNat + (s.getV 0).toNat := by
  have h1 := nnn.isLt
  have h2 := (s.getV 0).isLt
  simp only [computedTarget, BitVec.toNat_add, zextAddr_toNat, zextByte_toNat]
  omega

theorem glyphAddress_toNat (v : Byte) : (glyphAddress v).toNat = 0x050 + v.toNat * 5 := by
  have := v.isLt
  simp only [glyphAddress, BitVec.toNat_ofNat]
  omega

theorem keyIndex_eq_some {v : Byte} {k : Reg} : keyIndex v = some k ↔ v.toNat = k.val := by
  unfold keyIndex
  split
  · next h => simp [Fin.ext_iff]
  · next h => simp; omega

theorem keyIndex_eq_none {v : Byte} : keyIndex v = none ↔ 0xF < v.toNat := by
  unfold keyIndex
  split
  · next h => simp; omega
  · next h => simp; omega

@[simp] theorem decimalDigits_length (v : Byte) : (decimalDigits v).length = 3 := rfl

/-! ### The block of registers of FX55 -/

@[simp] theorem getVUpTo_length (s : State) (x : Reg) : (s.getVUpTo x).length = x.val + 1 := by
  have := x.isLt
  simp only [State.getVUpTo, List.length_take, Vector.length_toList]
  omega

theorem getVUpTo_getElem (s : State) (x : Reg) (k : Nat) (h : k < (s.getVUpTo x).length) :
    (s.getVUpTo x)[k] = s.getV ⟨k, by simp at h; omega⟩ := by
  simp [State.getVUpTo, State.getV]

/-! ### Call stack -/

/-- Below depth 16 a push writes the entry at `sp` and raises `sp` by one. -/
theorem push_eq_some {s : State} (v : Word) (h : s.sp.val < 16) :
    s.push v = some { s with stack := s.stack.set s.sp.val v, sp := ⟨s.sp.val + 1, by omega⟩ } := by
  simp [State.push, h]

theorem push_eq_none {s : State} (v : Word) : s.push v = none ↔ s.sp = 16 := by
  unfold State.push
  split
  · next h => simp [Fin.ext_iff]; omega
  · next h => simp [Fin.ext_iff]; omega

/-- Above depth 0 a pop gives the entry below `sp` and lowers `sp` by one; the entry stays. -/
theorem pop_eq_some {s : State} (h : s.sp.val ≠ 0) :
    s.pop = some (s.stack[s.sp.val - 1], { s with sp := ⟨s.sp.val - 1, by omega⟩ }) := by
  simp [State.pop, h]

theorem pop_eq_none {s : State} : s.pop = none ↔ s.sp = 0 := by
  unfold State.pop
  split
  · next h => simp [Fin.ext_iff, h]
  · next h => simp [Fin.ext_iff, h]

/-! ### Keypad -/

/-- The least key of the keypad, when there is one: pressed, and no lower key is. -/
theorem leastKey_eq_some {s : State} {k : Reg} (h : s.leastKey = some k) :
    s.key[k] = true ∧ ∀ j : Reg, j < k → s.key[j] = false := by
  obtain ⟨hk, as, bs, e, hl⟩ := List.find?_eq_some_iff_append.mp h
  refine ⟨hk, fun j hj => ?_⟩
  have hs : (List.finRange 16).Pairwise (· < ·) := List.pairwise_lt_finRange 16
  rw [e] at hs
  have hmem : j ∈ as ++ k :: bs := e ▸ List.mem_finRange j
  rcases List.mem_append.mp hmem with ha | hb
  · have := hl j ha
    simpa using this
  · rcases List.mem_cons.mp hb with rfl | hb
    · exact absurd hj (lt_irrefl _)
    · have := (List.pairwise_cons.mp (List.pairwise_append.mp hs).2.1).1 j hb
      exact absurd (lt_trans hj this) (lt_irrefl _)

/-- A pressed key below which none is pressed is the least key. -/
theorem leastKey_of_least {s : State} {k : Reg} (hk : s.key[k] = true)
    (hl : ∀ j : Reg, j < k → s.key[j] = false) : s.leastKey = some k := by
  cases h : s.leastKey with
  | none =>
    have := List.find?_eq_none.mp h k (List.mem_finRange k)
    exact absurd hk (by simpa using this)
  | some j =>
    obtain ⟨hj, hlj⟩ := leastKey_eq_some h
    rcases lt_trichotomy j k with hlt | rfl | hgt
    · exact absurd hj (by simp [hl j hlt])
    · rfl
    · exact absurd hk (by simp [hlj k hgt])

theorem leastKey_eq_none {s : State} : s.leastKey = none ↔ ∀ k : Reg, s.key[k] = false := by
  simp [State.leastKey, List.find?_eq_none]

/-! ### Fetch -/

theorem fetch_eq_some {s : State} (h : s.pc.toNat ≤ 0xFFE) :
    s.fetch = some (concatBytes (Memory.read s.mem s.pc.toNat) (Memory.read s.mem (s.pc.toNat + 1))) := by
  have : inRange s.pc.toNat 2 = true := (inRange_iff _ _).mpr (by omega)
  simp [State.fetch, this]

theorem fetch_eq_none {s : State} : s.fetch = none ↔ 0xFFE < s.pc.toNat := by
  have := inRange_iff s.pc.toNat 2
  unfold State.fetch
  split
  · simp_all
  · simp_all

theorem concatBytes_opcodeBytes (w : Opcode) : concatBytes (w.extractLsb' 8 8) (w.extractLsb' 0 8) = w := by
  apply BitVec.eq_of_getLsbD_eq
  intro i hi
  refine (BitVec.getLsbD_append (x := w.extractLsb' 8 8) (y := w.extractLsb' 0 8)).trans ?_
  by_cases h : i < 8
  · simp [h]
  · simp [h, show i - 8 < 8 by omega, show 8 + (i - 8) = i by omega]

/-- The next fetch after placing an opcode gives that opcode. -/
theorem fetch_placeOpcode {s : State} (w : Opcode) (h : Memory.wf s.mem = true) :
    (s.placeOpcode w).fetch = some w := by
  have key : ∀ pc : Word, pc.toNat ≤ 0xFFE →
      State.fetch { s with mem := Memory.writeBlock s.mem pc.toNat (opcodeBytes w), pc := pc, halted := false }
        = some w := by
    intro pc hp
    rw [fetch_eq_some (by exact hp)]
    have h0 := Memory.read_writeBlock_inside (k := 0) (a := pc.toNat) (opcodeBytes w) h (by simp [opcodeBytes]; omega)
      (by simp [opcodeBytes])
    have h1 := Memory.read_writeBlock_inside (k := 1) (a := pc.toNat) (opcodeBytes w) h (by simp [opcodeBytes]; omega)
      (by simp [opcodeBytes])
    simp only [Nat.add_zero] at h0
    rw [h0, h1]
    exact congrArg some (concatBytes_opcodeBytes w)
  unfold State.placeOpcode
  refine key _ ?_
  split
  · next hr => have := (inRange_iff _ _).mp hr; omega
  · decide

end Sys2Proof.Machine
end

