-- ==== Sys2Proof/Laws/Step.lean ====
section
/-! SUPPORT. What an instruction and a step can do, said once. -/

namespace Sys2Proof.Machine

/-- What an instruction that raises nothing may do to the parts of the state the invariant speaks of. -/
structure Effect (s t : State) : Prop where
  /-- Memory is kept, or one block inside the address space is stored. -/
  mem : t.mem = s.mem ∨ ∃ a bs, a + bs.length ≤ 0x1000 ∧ t.mem = Memory.writeBlock s.mem a bs
  /-- `pc` is kept, moved by one or two instructions, set to a target, or taken from the stack. -/
  pc : t.pc = s.pc ∨ t.pc = s.pc + 2 ∨ t.pc = s.pc + 4 ∨ t.pc.toNat ≤ 0x10FE ∨ ∃ k : Fin 16, t.pc = s.stack[k]
  /-- The stack is kept, or one return address is put into it. -/
  stack : t.stack = s.stack ∨ ∃ k : Fin 16, t.stack = s.stack.set k (s.pc + 2)
  halted : t.halted = s.halted
  fault : t.fault = s.fault
  key : t.key = s.key

/-- The fatal conditions an instruction may raise from `s`, with the addresses they record. -/
def FatalArgs (c : FatalCode) (a : Word) : Prop :=
  (c = .stackOverflow ∧ a = 0) ∨ (c = .stackUnderflow ∧ a = 0) ∨
  (c = .addressOutOfRange ∧ 0x1000 ≤ a.toNat) ∨ (c = .keyIndexOutOfRange ∧ 0x10 ≤ a.toNat ∧ a.toNat ≤ 0xFF)

theorem firstOutOfRange_ge (s : State) : 0x1000 ≤ (firstOutOfRange (indexed s 0)).toNat := by
  rw [firstOutOfRange_toNat (by have := s.I.isLt; simp only [indexed]; omega)]
  omega

/-- A skip only moves `pc`. -/
theorem effect_skip (s : State) (c : Bool) : Effect s (s.skipIf c) := by
  rw [State.skipIf_eq]
  refine ⟨.inl rfl, ?_, .inl rfl, rfl, rfl, rfl⟩
  cases c
  · exact .inr (.inl rfl)
  · exact .inr (.inr (.inl rfl))

/-- Registers, `I`, the timers, the framebuffer and the draw may change freely while `pc` moves on by one
instruction. -/
theorem effect_next (s : State) (V : Vector Byte 16) (I : Word) (fb : Framebuffer) (delay sound : Byte)
    (draw : Option Byte) (drawCount : Nat) :
    Effect s { s with V := V, I := I, pc := s.pc + 2, fb := fb, delay := delay, sound := sound, draw := draw,
                      drawCount := drawCount } :=
  ⟨.inl rfl, .inr (.inl rfl), .inl rfl, rfl, rfl, rfl⟩

/-- A fatal condition with the opcode of `i`. -/
def RaisedIn (i : Instr) (s t : State) : Prop :=
  ∃ c a, FatalArgs c a ∧ t = s.raiseFatal ((encode i).setWidth 17) c a

/-- An address fault of `i`. -/
theorem raisedIn_address (i : Instr) (s : State) : RaisedIn i s (s.raiseAddress i (indexed s 0)) :=
  ⟨.addressOutOfRange, firstOutOfRange (indexed s 0), .inr (.inr (.inl ⟨rfl, firstOutOfRange_ge s⟩)), rfl⟩

/-- A key fault of `i`. -/
theorem raisedIn_key (i : Instr) (s : State) (v : Byte) (h : keyIndex v = none) : RaisedIn i s (s.raiseKey i v) := by
  have h1 := keyIndex_eq_none.mp h
  have h2 := v.isLt
  refine ⟨.keyIndexOutOfRange, zextByte v, .inr (.inr (.inr ⟨rfl, ?_⟩)), rfl⟩
  rw [zextByte_toNat]
  omega

theorem exec_ret_cases {s t : State} (h : exec .ret s = .next t) :
    Effect s t ∨ RaisedIn .ret s t := by
  simp only [exec, execRet] at h
  by_cases h0 : s.sp.val = 0
  · rw [pop_eq_none.mpr (Fin.ext h0)] at h
    cases h
    exact .inr ⟨_, _, .inr (.inl ⟨rfl, rfl⟩), rfl⟩
  · rw [pop_eq_some h0] at h
    cases h
    exact .inl ⟨.inl rfl, .inr (.inr (.inr (.inr ⟨⟨s.sp.val - 1, by omega⟩, rfl⟩))), .inl rfl, rfl, rfl, rfl⟩

theorem exec_callAddr_cases (nnn : Addr12) {s t : State} (h : exec (.callAddr nnn) s = .next t) :
    Effect s t ∨ RaisedIn (.callAddr nnn) s t := by
  simp only [exec, execCallAddr] at h
  by_cases h0 : s.sp.val < 16
  · rw [push_eq_some _ h0] at h
    cases h
    refine .inl ⟨.inl rfl, .inr (.inr (.inr (.inl ?_))), .inr ⟨⟨s.sp.val, h0⟩, rfl⟩, rfl, rfl, rfl⟩
    have := nnn.isLt
    simp only [State.setPc_pc, zextAddr_toNat]
    omega
  · rw [(push_eq_none _).mpr (Fin.ext (by have := s.sp.isLt; simp; omega))] at h
    cases h
    exact .inr ⟨_, _, .inl ⟨rfl, rfl⟩, rfl⟩

theorem exec_jpAddr_cases (nnn : Addr12) {s t : State} (h : exec (.jpAddr nnn) s = .next t) :
    Effect s t ∨ RaisedIn (.jpAddr nnn) s t := by
  cases h
  refine .inl ⟨.inl rfl, .inr (.inr (.inr (.inl ?_))), .inl rfl, rfl, rfl, rfl⟩
  have := nnn.isLt
  simp only [State.setPc_pc, zextAddr_toNat]
  omega

theorem exec_jpV0Addr_cases (nnn : Addr12) {s t : State} (h : exec (.jpV0Addr nnn) s = .next t) :
    Effect s t ∨ RaisedIn (.jpV0Addr nnn) s t := by
  cases h
  refine .inl ⟨.inl rfl, .inr (.inr (.inr (.inl ?_))), .inl rfl, rfl, rfl, rfl⟩
  have h1 := nnn.isLt
  have h2 := (s.getV 0).isLt
  simp only [State.setPc_pc, computedTarget_toNat]
  omega

theorem exec_skpVx_cases (x : Reg) {s t : State} (h : exec (.skpVx x) s = .next t) :
    Effect s t ∨ RaisedIn (.skpVx x) s t := by
  simp only [exec, execSkpVx] at h
  cases hk : keyIndex (s.getV x) with
  | some k => rw [hk] at h; cases h; exact .inl (effect_skip s _)
  | none => rw [hk] at h; cases h; exact .inr (raisedIn_key _ s _ hk)

theorem exec_sknpVx_cases (x : Reg) {s t : State} (h : exec (.sknpVx x) s = .next t) :
    Effect s t ∨ RaisedIn (.sknpVx x) s t := by
  simp only [exec, execSknpVx] at h
  cases hk : keyIndex (s.getV x) with
  | some k => rw [hk] at h; cases h; exact .inl (effect_skip s _)
  | none => rw [hk] at h; cases h; exact .inr (raisedIn_key _ s _ hk)

theorem exec_ldVxK_cases (x : Reg) {s t : State} (h : exec (.ldVxK x) s = .next t) :
    Effect s t ∨ RaisedIn (.ldVxK x) s t := by
  simp only [exec, execLdVxK] at h
  cases hk : s.leastKey with
  | some k => rw [hk] at h; cases h; exact .inl ⟨.inl rfl, .inr (.inl rfl), .inl rfl, rfl, rfl, rfl⟩
  | none => rw [hk] at h; cases h; exact .inl ⟨.inl rfl, .inl rfl, .inl rfl, rfl, rfl, rfl⟩

theorem exec_drwVxVyNibble_cases (x y : Reg) (n : Nibble) {s t : State} (h : exec (.drwVxVyNibble x y n) s = .next t) :
    Effect s t ∨ RaisedIn (.drwVxVyNibble x y n) s t := by
  simp only [exec, execDrwVxVyNibble] at h
  generalize drawSprite _ _ _ _ _ _ = d at h
  split at h
  · cases h; exact .inl (effect_next s _ _ _ _ _ _ _)
  · cases h; exact .inr (raisedIn_address _ s)

theorem exec_ldBVx_cases (x : Reg) {s t : State} (h : exec (.ldBVx x) s = .next t) :
    Effect s t ∨ RaisedIn (.ldBVx x) s t := by
  simp only [exec, execLdBVx] at h
  split at h
  · next hr =>
    cases h
    have := (inRange_iff _ _).mp hr
    exact .inl ⟨.inr ⟨indexed s 0, _, by simp only [decimalDigits_length]; omega, rfl⟩, .inr (.inl rfl), .inl rfl,
      rfl, rfl, rfl⟩
  · cases h; exact .inr (raisedIn_address _ s)

theorem exec_ldMemIVx_cases (x : Reg) {s t : State} (h : exec (.ldMemIVx x) s = .next t) :
    Effect s t ∨ RaisedIn (.ldMemIVx x) s t := by
  simp only [exec, execLdMemIVx] at h
  split at h
  · next hr =>
    cases h
    have := (inRange_iff _ _).mp hr
    exact .inl ⟨.inr ⟨indexed s 0, _, by simp only [getVUpTo_length]; omega, rfl⟩, .inr (.inl rfl), .inl rfl,
      rfl, rfl, rfl⟩
  · cases h; exact .inr (raisedIn_address _ s)

theorem exec_ldVxMemI_cases (x : Reg) {s t : State} (h : exec (.ldVxMemI x) s = .next t) :
    Effect s t ∨ RaisedIn (.ldVxMemI x) s t := by
  simp only [exec, execLdVxMemI] at h
  split at h
  · generalize hv : (s.setVUpTo x fun k => Memory.read s.mem (indexed s k)) = u at h
    cases h
    subst hv
    exact .inl ⟨.inl (by simp), .inr (.inl (by simp)), .inl (by simp), by simp, by simp, by simp⟩
  · cases h; exact .inr (raisedIn_address _ s)

/-- An instruction that answers `t` raised a fatal condition, with its own opcode and nothing else changed, or had an
effect within `Effect`. -/
theorem exec_cases {i : Instr} {s t : State} (h : exec i s = .next t) : Effect s t ∨ RaisedIn i s t := by
  cases i with
  | ret => exact exec_ret_cases h
  | callAddr nnn => exact exec_callAddr_cases nnn h
  | jpAddr nnn => exact exec_jpAddr_cases nnn h
  | jpV0Addr nnn => exact exec_jpV0Addr_cases nnn h
  | seVxByte x nn => cases h; exact .inl (effect_skip s _)
  | sneVxByte x nn => cases h; exact .inl (effect_skip s _)
  | seVxVy x y => cases h; exact .inl (effect_skip s _)
  | sneVxVy x y => cases h; exact .inl (effect_skip s _)
  | skpVx x => exact exec_skpVx_cases x h
  | sknpVx x => exact exec_sknpVx_cases x h
  | ldVxK x => exact exec_ldVxK_cases x h
  | drwVxVyNibble x y n => exact exec_drwVxVyNibble_cases x y n h
  | ldBVx x => exact exec_ldBVx_cases x h
  | ldMemIVx x => exact exec_ldMemIVx_cases x h
  | ldVxMemI x => exact exec_ldVxMemI_cases x h
  | _ => cases h; exact .inl (effect_next s _ _ _ _ _ _ _)

/-- What a step can be: halted, a fetch fault, an instruction, or an unknown opcode (40_cycle.md R90). -/
theorem step_cases {s t : State} (h : step s = .next t) :
    (s.halted = true ∧ t = s) ∨
    (s.halted = false ∧ s.fetch = none ∧ t = s.raiseFetch) ∨
    (∃ w i, s.halted = false ∧ s.fetch = some w ∧ decode w = .ok i ∧ exec i s = .next t) ∨
    (∃ w g, s.halted = false ∧ s.fetch = some w ∧ decode w = .error g ∧ t = s.skipUnknown) := by
  unfold step at h
  cases hh : s.halted with
  | true =>
    rw [hh] at h
    simp only [if_true] at h
    cases h
    exact .inl ⟨rfl, rfl⟩
  | false =>
    rw [hh] at h
    simp only [Bool.false_eq_true, if_false] at h
    cases hf : s.fetch with
    | none =>
      rw [hf] at h
      cases h
      exact .inr (.inl ⟨rfl, rfl, rfl⟩)
    | some w =>
      rw [hf] at h
      simp only at h
      cases hd : decode w with
      | ok i =>
        rw [hd] at h
        exact .inr (.inr (.inl ⟨w, i, rfl, rfl, hd, h⟩))
      | error g =>
        rw [hd] at h
        cases h
        exact .inr (.inr (.inr ⟨w, g, rfl, rfl, hd, rfl⟩))

/-- The step of a core that is not halted, from what its fetch and decode give. -/
theorem step_eq_exec {s : State} {w : Opcode} {i : Instr} (hh : s.halted = false) (hf : s.fetch = some w)
    (hd : decode w = .ok i) : step s = exec i s := by
  simp [step, hh, hf, hd]

theorem step_eq_skip {s : State} {w : Opcode} {g : UnknownOpcode} (hh : s.halted = false) (hf : s.fetch = some w)
    (hd : decode w = .error g) : step s = .next s.skipUnknown := by
  simp [step, hh, hf, hd]

theorem step_eq_raiseFetch {s : State} (hh : s.halted = false) (hf : s.fetch = none) :
    step s = .next s.raiseFetch := by
  simp [step, hh, hf]

theorem step_eq_halted {s : State} (hh : s.halted = true) : step s = .next s := by
  simp [step, hh]

end Sys2Proof.Machine
end

