-- ==== Sys2Proof/Laws/Exec.lean ====
section
/-! SUPPORT. What each instruction with a check does, as one inversion lemma, and small facts for the result statements. -/

namespace Sys2Proof

/-! ### The match columns of the table as fields -/

theorem fieldT_of_mask {w p : Opcode} (t : Nibble) (hp : formatAddr t 0 = p) (h : w &&& 0xF000#16 = p) :
    fieldT w = t :=
  (mask_F000_iff w t).mp (h.trans hp.symm)

theorem fieldN_of_mask {w p : Opcode} (t n : Nibble) (hp : formatRegReg t 0 0 n = p) (h : w &&& 0xF00F#16 = p) :
    fieldT w = t ∧ fieldN w = n :=
  (mask_F00F_iff w t n).mp (h.trans hp.symm)

theorem fieldNN_of_mask {w p : Opcode} (t : Nibble) (nn : Byte) (hp : formatRegByte t 0 nn = p)
    (h : w &&& 0xF0FF#16 = p) : fieldT w = t ∧ fieldNN w = nn :=
  (mask_F0FF_iff w t nn).mp (h.trans hp.symm)

theorem eq_of_full_mask {w p : Opcode} (h : w &&& 0xFFFF#16 = p) : w = p := by
  have : w &&& 0xFFFF#16 = w := BitVec.and_allOnes
  rw [← this, h]

namespace Machine

/-! ### Values as natural numbers -/

theorem zextAddr_eq_ofNat (nnn : Addr12) : zextAddr nnn = BitVec.ofNat 16 nnn.toNat := by
  apply BitVec.eq_of_toNat_eq
  have := nnn.isLt
  rw [zextAddr_toNat, BitVec.toNat_ofNat]
  omega

theorem zextByte_eq_ofNat (v : Byte) : zextByte v = BitVec.ofNat 16 v.toNat := by
  apply BitVec.eq_of_toNat_eq
  have := v.isLt
  rw [zextByte_toNat, BitVec.toNat_ofNat]
  omega

theorem byte_add_eq (a b : Byte) : a + b = BitVec.ofNat 8 ((a.toNat + b.toNat) % 256) := by
  apply BitVec.eq_of_toNat_eq
  simp [BitVec.toNat_add]

theorem byte_sub_eq (a b : Byte) : a - b = BitVec.ofNat 8 ((a.toNat + 256 - b.toNat) % 256) := by
  apply BitVec.eq_of_toNat_eq
  have := a.isLt
  have := b.isLt
  simp only [BitVec.toNat_sub, BitVec.toNat_ofNat]
  omega

theorem concatBytes_eq_ofNat (hi lo : Byte) : concatBytes hi lo = BitVec.ofNat 16 (hi.toNat * 256 + lo.toNat) := by
  apply BitVec.eq_of_toNat_eq
  have h1 := hi.isLt
  have h2 := lo.isLt
  have : (concatBytes hi lo).toNat = hi.toNat <<< 8 ||| lo.toNat := BitVec.toNat_append hi lo
  rw [this, ← Nat.shiftLeft_add_eq_or_of_lt h2, Nat.shiftLeft_eq, BitVec.toNat_ofNat]
  omega

/-! ### Inversion of the instructions that check something -/

variable {s t : State}

theorem exec_ret_inv (h : exec .ret s = .next t) :
    (s.sp.val = 0 ∧ t = s.raiseIn .ret .stackUnderflow 0) ∨
    (∃ _ : s.sp.val ≠ 0, t = { s with sp := ⟨s.sp.val - 1, by omega⟩, pc := s.stack[s.sp.val - 1] }) := by
  simp only [exec, execRet] at h
  by_cases h0 : s.sp.val = 0
  · rw [pop_eq_none.mpr (Fin.ext h0)] at h; cases h; exact .inl ⟨h0, rfl⟩
  · rw [pop_eq_some h0] at h; cases h; exact .inr ⟨h0, rfl⟩

theorem exec_callAddr_inv {nnn : Addr12} (h : exec (.callAddr nnn) s = .next t) :
    (s.sp = 16 ∧ t = s.raiseIn (.callAddr nnn) .stackOverflow 0) ∨
    (∃ _ : s.sp.val < 16, t = { s with stack := s.stack.set s.sp.val (s.pc + 2), sp := ⟨s.sp.val + 1, by omega⟩,
                                       pc := zextAddr nnn }) := by
  simp only [exec, execCallAddr] at h
  by_cases h0 : s.sp.val < 16
  · rw [push_eq_some _ h0] at h; cases h; exact .inr ⟨h0, rfl⟩
  · have : s.sp = 16 := Fin.ext (by have := s.sp.isLt; show _ = 16; omega)
    rw [(push_eq_none _).mpr this] at h; cases h; exact .inl ⟨this, rfl⟩

theorem exec_skpVx_inv {x : Reg} (h : exec (.skpVx x) s = .next t) :
    (0xF < (s.getV x).toNat ∧ t = s.raiseKey (.skpVx x) (s.getV x)) ∨
    (∃ k : Reg, (s.getV x).toNat = k.val ∧ t = s.skipIf s.key[k]) := by
  simp only [exec, execSkpVx] at h
  cases hk : keyIndex (s.getV x) with
  | some k => rw [hk] at h; cases h; exact .inr ⟨k, keyIndex_eq_some.mp hk, rfl⟩
  | none => rw [hk] at h; cases h; exact .inl ⟨keyIndex_eq_none.mp hk, rfl⟩

theorem exec_sknpVx_inv {x : Reg} (h : exec (.sknpVx x) s = .next t) :
    (0xF < (s.getV x).toNat ∧ t = s.raiseKey (.sknpVx x) (s.getV x)) ∨
    (∃ k : Reg, (s.getV x).toNat = k.val ∧ t = s.skipIf (!s.key[k])) := by
  simp only [exec, execSknpVx] at h
  cases hk : keyIndex (s.getV x) with
  | some k => rw [hk] at h; cases h; exact .inr ⟨k, keyIndex_eq_some.mp hk, rfl⟩
  | none => rw [hk] at h; cases h; exact .inl ⟨keyIndex_eq_none.mp hk, rfl⟩

theorem exec_ldVxK_inv {x : Reg} (h : exec (.ldVxK x) s = .next t) :
    ((∀ k : Reg, s.key[k] = false) ∧ t = s) ∨
    (∃ k : Reg, s.leastKey = some k ∧ s.key[k] = true ∧ t = (s.setV x (BitVec.ofNat 8 k.val)).advance) := by
  simp only [exec, execLdVxK] at h
  cases hk : s.leastKey with
  | some k => rw [hk] at h; cases h; exact .inr ⟨k, rfl, (leastKey_eq_some hk).1, rfl⟩
  | none => rw [hk] at h; cases h; exact .inl ⟨leastKey_eq_none.mp hk, rfl⟩

theorem exec_drwVxVyNibble_inv {x y : Reg} {n : Nibble} (h : exec (.drwVxVyNibble x y n) s = .next t) :
    ((n.toNat ≠ 0 ∧ 0x1000 < s.I.toNat + n.toNat) ∧ t = s.raiseAddress (.drwVxVyNibble x y n) s.I.toNat) ∨
    ((n.toNat = 0 ∨ s.I.toNat + n.toNat ≤ 0x1000) ∧
      ∃ d, d = drawSprite s.mem s.I.toNat (s.getV x).toNat (s.getV y).toNat n.toNat s.fb ∧
        t = ((s.setFb d.1).setV VF (flagOf d.2)).advance) := by
  simp only [exec, execDrwVxVyNibble] at h
  cases hr : inRange (indexed s 0) n.toNat with
  | true =>
    rw [hr] at h
    refine .inr ⟨(inRange_iff _ _).mp hr, _, rfl, ?_⟩
    have e : indexed s 0 = s.I.toNat := rfl
    rw [← e]
    generalize drawSprite s.mem (indexed s 0) (s.getV x).toNat (s.getV y).toNat n.toNat s.fb = d at h ⊢
    cases h
    rfl
  | false => rw [hr] at h; cases h; exact .inl ⟨(inRange_false_iff _ _).mp hr, rfl⟩

theorem exec_ldBVx_inv {x : Reg} (h : exec (.ldBVx x) s = .next t) :
    (0x1000 < s.I.toNat + 3 ∧ t = s.raiseAddress (.ldBVx x) s.I.toNat) ∨
    (s.I.toNat + 3 ≤ 0x1000 ∧ t = (s.storeBytes s.I.toNat (decimalDigits (s.getV x))).advance) := by
  simp only [exec, execLdBVx] at h
  cases hr : inRange (indexed s 0) 3 with
  | true =>
    rw [hr] at h; cases h
    exact .inr ⟨((inRange_iff (s.I.toNat + 0) 3).mp hr).resolve_left (by omega), rfl⟩
  | false => rw [hr] at h; cases h; exact .inl ⟨((inRange_false_iff (s.I.toNat + 0) 3).mp hr).2, rfl⟩

theorem exec_ldMemIVx_inv {x : Reg} (h : exec (.ldMemIVx x) s = .next t) :
    (0x1000 < s.I.toNat + (x.val + 1) ∧ t = s.raiseAddress (.ldMemIVx x) s.I.toNat) ∨
    (s.I.toNat + (x.val + 1) ≤ 0x1000 ∧ t = (s.storeBytes s.I.toNat (s.getVUpTo x)).advance) := by
  simp only [exec, execLdMemIVx] at h
  cases hr : inRange (indexed s 0) (x.val + 1) with
  | true =>
    rw [hr] at h; cases h
    exact .inr ⟨((inRange_iff (s.I.toNat + 0) (x.val + 1)).mp hr).resolve_left (by omega), rfl⟩
  | false => rw [hr] at h; cases h; exact .inl ⟨((inRange_false_iff (s.I.toNat + 0) (x.val + 1)).mp hr).2, rfl⟩

theorem exec_ldVxMemI_inv {x : Reg} (h : exec (.ldVxMemI x) s = .next t) :
    (0x1000 < s.I.toNat + (x.val + 1) ∧ t = s.raiseAddress (.ldVxMemI x) s.I.toNat) ∨
    (s.I.toNat + (x.val + 1) ≤ 0x1000 ∧
      ∃ u, u = (s.setVUpTo x fun k => Memory.read s.mem (s.I.toNat + k)) ∧ t = u.advance) := by
  simp only [exec, execLdVxMemI] at h
  cases hr : inRange (indexed s 0) (x.val + 1) with
  | true =>
    rw [hr] at h
    simp only [if_true] at h
    exact .inr ⟨((inRange_iff (s.I.toNat + 0) (x.val + 1)).mp hr).resolve_left (by omega), _, rfl,
      (Host.Outcome.next.inj h).symm⟩
  | false => rw [hr] at h; cases h; exact .inl ⟨((inRange_false_iff (s.I.toNat + 0) (x.val + 1)).mp hr).2, rfl⟩

end Machine

end Sys2Proof
end

