-- ==== Sys2Proof/Laws/PerInstr.lean ====
section
/-! SUPPORT. Statements made of every instruction, one lemma per constructor. -/

namespace Sys2Proof.Laws.EncodingRow

/-- The word of an instruction lies in the row of spec/opcode_table.json that it stands for. -/
def Statement (i : Instr) : Prop := encode i &&& (rowOf i).1 = (rowOf i).2

theorem cls : Statement .cls := by unfold Statement; decide

theorem ret : Statement .ret := by unfold Statement; decide

theorem sysAddr (nnn : Addr12) : Statement (.sysAddr nnn) :=
  (formatAddr_and _ _).trans rfl

theorem jpAddr (nnn : Addr12) : Statement (.jpAddr nnn) :=
  (formatAddr_and _ _).trans rfl

theorem callAddr (nnn : Addr12) : Statement (.callAddr nnn) :=
  (formatAddr_and _ _).trans rfl

theorem seVxByte (x : Reg) (nn : Byte) : Statement (.seVxByte x nn) :=
  (formatRegByte_and_F000 _ _ _).trans rfl

theorem sneVxByte (x : Reg) (nn : Byte) : Statement (.sneVxByte x nn) :=
  (formatRegByte_and_F000 _ _ _).trans rfl

theorem seVxVy (x y : Reg) : Statement (.seVxVy x y) :=
  (formatRegReg_and _ _ _ _).trans rfl

theorem ldVxByte (x : Reg) (nn : Byte) : Statement (.ldVxByte x nn) :=
  (formatRegByte_and_F000 _ _ _).trans rfl

theorem addVxByte (x : Reg) (nn : Byte) : Statement (.addVxByte x nn) :=
  (formatRegByte_and_F000 _ _ _).trans rfl

theorem ldVxVy (x y : Reg) : Statement (.ldVxVy x y) :=
  (formatRegReg_and _ _ _ _).trans rfl

theorem orVxVy (x y : Reg) : Statement (.orVxVy x y) :=
  (formatRegReg_and _ _ _ _).trans rfl

theorem andVxVy (x y : Reg) : Statement (.andVxVy x y) :=
  (formatRegReg_and _ _ _ _).trans rfl

theorem xorVxVy (x y : Reg) : Statement (.xorVxVy x y) :=
  (formatRegReg_and _ _ _ _).trans rfl

theorem addVxVy (x y : Reg) : Statement (.addVxVy x y) :=
  (formatRegReg_and _ _ _ _).trans rfl

theorem subVxVy (x y : Reg) : Statement (.subVxVy x y) :=
  (formatRegReg_and _ _ _ _).trans rfl

theorem shrVxVy (x y : Reg) : Statement (.shrVxVy x y) :=
  (formatRegReg_and _ _ _ _).trans rfl

theorem subnVxVy (x y : Reg) : Statement (.subnVxVy x y) :=
  (formatRegReg_and _ _ _ _).trans rfl

theorem shlVxVy (x y : Reg) : Statement (.shlVxVy x y) :=
  (formatRegReg_and _ _ _ _).trans rfl

theorem sneVxVy (x y : Reg) : Statement (.sneVxVy x y) :=
  (formatRegReg_and _ _ _ _).trans rfl

theorem ldIAddr (nnn : Addr12) : Statement (.ldIAddr nnn) :=
  (formatAddr_and _ _).trans rfl

theorem jpV0Addr (nnn : Addr12) : Statement (.jpV0Addr nnn) :=
  (formatAddr_and _ _).trans rfl

theorem rndVxByte (x : Reg) (nn : Byte) : Statement (.rndVxByte x nn) :=
  (formatRegByte_and_F000 _ _ _).trans rfl

theorem drwVxVyNibble (x y : Reg) (n : Nibble) : Statement (.drwVxVyNibble x y n) :=
  (formatRegReg_and_F000 _ _ _ _).trans rfl

theorem skpVx (x : Reg) : Statement (.skpVx x) :=
  (formatRegByte_and _ _ _).trans rfl

theorem sknpVx (x : Reg) : Statement (.sknpVx x) :=
  (formatRegByte_and _ _ _).trans rfl

theorem ldVxDT (x : Reg) : Statement (.ldVxDT x) :=
  (formatRegByte_and _ _ _).trans rfl

theorem ldVxK (x : Reg) : Statement (.ldVxK x) :=
  (formatRegByte_and _ _ _).trans rfl

theorem ldDTVx (x : Reg) : Statement (.ldDTVx x) :=
  (formatRegByte_and _ _ _).trans rfl

theorem ldSTVx (x : Reg) : Statement (.ldSTVx x) :=
  (formatRegByte_and _ _ _).trans rfl

theorem addIVx (x : Reg) : Statement (.addIVx x) :=
  (formatRegByte_and _ _ _).trans rfl

theorem ldFVx (x : Reg) : Statement (.ldFVx x) :=
  (formatRegByte_and _ _ _).trans rfl

theorem ldBVx (x : Reg) : Statement (.ldBVx x) :=
  (formatRegByte_and _ _ _).trans rfl

theorem ldMemIVx (x : Reg) : Statement (.ldMemIVx x) :=
  (formatRegByte_and _ _ _).trans rfl

theorem ldVxMemI (x : Reg) : Statement (.ldVxMemI x) :=
  (formatRegByte_and _ _ _).trans rfl

end Sys2Proof.Laws.EncodingRow
end

