-- ==== Sys2Proof/Tests/Slice0.lean ====
section
/-! SUPPORT. Tests: words written out from the encodings of spec/, single steps of spec/95_test_vectors.md (the vector
is named in each comment), and a witness for the hypotheses of each obligation. -/

namespace Sys2Proof.Tests

open Sys2Proof Sys2Proof.Machine

/-! ### Helpers -/

/-- The reset state with registers set. -/
def regs (l : List (Reg × Byte)) : State := l.foldl (fun s p => s.setV p.1 p.2) State.reset

/-- The state after an outcome, or `s` if there is none. -/
def after (s : State) : Host.Outcome State Fault Refusal → State
  | .next t => t
  | .fault _ => s
  | .refused _ => s

/-- One step of `s` with the opcode `w` at its `pc`. -/
def run (w : Opcode) (s : State) : State := after s (step (s.placeOpcode w))

/-- The result of that step. -/
def result (w : Opcode) (s : State) : StepResult := resultOf (s.placeOpcode w) (run w s)

/-- `s` with bytes stored from `a` on. -/
def put (a : Nat) (bs : List Byte) (s : State) : State := s.storeBytes a bs

/-- `s` with one pixel set. -/
def dot (x : Fin 64) (y : Fin 32) (s : State) : State := s.setFb (togglePixel s.fb x y)

/-- `s` with one key pressed. -/
def press (k : Fin 16) (s : State) : State := setKey k true s

/-- `s` with `sp` and the entry below it. -/
def depth (n : Fin 17) (v : Word) (s : State) : State :=
  { s with sp := n, stack := s.stack.set (n.val - 1) v (by omega) }

/-! ### WellFormed: the ill-formed terms are refused (30_encoding.md R75) -/

theorem test_wf_refuses_sys_00E0 : (Instr.sysAddr 0x0E0).wf = false := by decide

theorem test_wf_refuses_sys_00EE : (Instr.sysAddr 0x0EE).wf = false := by decide

theorem test_wf_accepts_sys_00E1 : (Instr.sysAddr 0x0E1).wf = true := by decide

/-! ### Decoding: one word for each row, written out from its pattern (30_encoding.md R72, R74) -/

theorem test_decode_cls : decode 0b0000_0000_1110_0000#16 = .ok .cls := by decide

theorem test_decode_ret : decode 0b0000_0000_1110_1110#16 = .ok .ret := by decide

theorem test_decode_sysAddr : decode 0b0000_0001_0010_0011#16 = .ok (.sysAddr 0x123) := by decide

theorem test_decode_jpAddr : decode 0b0001_1010_1011_1100#16 = .ok (.jpAddr 0xABC) := by decide

theorem test_decode_callAddr : decode 0b0010_0011_1010_0100#16 = .ok (.callAddr 0x3A4) := by decide

theorem test_decode_seVxByte : decode 0b0011_1001_0010_1010#16 = .ok (.seVxByte 9 0x2A) := by decide

theorem test_decode_sneVxByte : decode 0b0100_0101_1111_0001#16 = .ok (.sneVxByte 5 0xF1) := by decide

theorem test_decode_seVxVy : decode 0b0101_0001_0010_0000#16 = .ok (.seVxVy 1 2) := by decide

theorem test_decode_ldVxByte : decode 0b0110_0011_0010_1010#16 = .ok (.ldVxByte 3 0x2A) := by decide

theorem test_decode_addVxByte : decode 0b0111_1110_0000_0001#16 = .ok (.addVxByte 14 0x01) := by decide

theorem test_decode_ldVxVy : decode 0b1000_1100_0011_0000#16 = .ok (.ldVxVy 12 3) := by decide

theorem test_decode_orVxVy : decode 0b1000_1100_0011_0001#16 = .ok (.orVxVy 12 3) := by decide

theorem test_decode_andVxVy : decode 0b1000_1100_0011_0010#16 = .ok (.andVxVy 12 3) := by decide

theorem test_decode_xorVxVy : decode 0b1000_1100_0011_0011#16 = .ok (.xorVxVy 12 3) := by decide

theorem test_decode_addVxVy : decode 0b1000_1100_0011_0100#16 = .ok (.addVxVy 12 3) := by decide

theorem test_decode_subVxVy : decode 0b1000_1100_0011_0101#16 = .ok (.subVxVy 12 3) := by decide

theorem test_decode_shrVxVy : decode 0b1000_1100_0011_0110#16 = .ok (.shrVxVy 12 3) := by decide

theorem test_decode_subnVxVy : decode 0b1000_1100_0011_0111#16 = .ok (.subnVxVy 12 3) := by decide

theorem test_decode_shlVxVy : decode 0b1000_1100_0011_1110#16 = .ok (.shlVxVy 12 3) := by decide

theorem test_decode_sneVxVy : decode 0b1001_0001_0010_0000#16 = .ok (.sneVxVy 1 2) := by decide

theorem test_decode_ldIAddr : decode 0b1010_0010_1111_0000#16 = .ok (.ldIAddr 0x2F0) := by decide

theorem test_decode_jpV0Addr : decode 0b1011_0001_0010_0011#16 = .ok (.jpV0Addr 0x123) := by decide

theorem test_decode_rndVxByte : decode 0b1100_0001_0000_1111#16 = .ok (.rndVxByte 1 0x0F) := by decide

theorem test_decode_drwVxVyNibble : decode 0b1101_0001_0010_0101#16 = .ok (.drwVxVyNibble 1 2 5) := by decide

theorem test_decode_skpVx : decode 0b1110_0001_1001_1110#16 = .ok (.skpVx 1) := by decide

theorem test_decode_sknpVx : decode 0b1110_1010_1010_0001#16 = .ok (.sknpVx 10) := by decide

theorem test_decode_ldVxDT : decode 0b1111_0100_0000_0111#16 = .ok (.ldVxDT 4) := by decide

theorem test_decode_ldVxK : decode 0b1111_0011_0000_1010#16 = .ok (.ldVxK 3) := by decide

theorem test_decode_ldDTVx : decode 0b1111_0100_0001_0101#16 = .ok (.ldDTVx 4) := by decide

theorem test_decode_ldSTVx : decode 0b1111_0100_0001_1000#16 = .ok (.ldSTVx 4) := by decide

theorem test_decode_addIVx : decode 0b1111_0101_0001_1110#16 = .ok (.addIVx 5) := by decide

theorem test_decode_ldFVx : decode 0b1111_0010_0010_1001#16 = .ok (.ldFVx 2) := by decide

theorem test_decode_ldBVx : decode 0b1111_0100_0011_0011#16 = .ok (.ldBVx 4) := by decide

theorem test_decode_ldMemIVx : decode 0b1111_1111_0101_0101#16 = .ok (.ldMemIVx 15) := by decide

theorem test_decode_ldVxMemI : decode 0b1111_1111_0110_0101#16 = .ok (.ldVxMemI 15) := by decide

/-- Unknown words of each group (30_encoding.md R76; vectors F9 to F13). -/
theorem test_decode_unknown :
    decode 0x5121 = .error .group5 ∧ decode 0x800F = .error .group8 ∧ decode 0x912F = .error .group9 ∧
    decode 0xE0A0 = .error .groupE ∧ decode 0xF066 = .error .groupF := by decide

/-- The bytes of a word in memory order (20_memory.md R56). -/
theorem test_decodeBytes :
    decodeBytes [0x6A, 0x55, 0x12] = .ok (.ldVxByte 10 0x55, [0x12]) ∧ decodeBytes [0x6A] = .error .truncated ∧
    decodeBytes [0x8A, 0xB8] = .error (.unknown .group8) := by decide

/-- The numbering of the host's table: a 16-bit word as the table has it. -/
theorem test_decodeTableWord :
    decodeTableWord 16 0x00E0 = some .cls ∧ decodeTableWord 16 0xF055 = some (.ldMemIVx 0) ∧
    decodeTableWord 16 0x5121 = none := by decide

/-- The examples of 30_encoding.md R79. -/
theorem test_encode :
    encode (.ldVxByte 3 0x2A) = 0x632A ∧ encode (.drwVxVyNibble 1 2 5) = 0xD125 ∧ encode (.ldMemIVx 15) = 0xFF55 ∧
    encode (.callAddr 0x3A4) = 0x23A4 := by decide

/-! ### Fetch, unknown opcodes, the halted core -/

/-- Vector F1. -/
theorem test_fetch_last_word :
    (fun t : State => (t.getV 0, t.pc)) (run 0x6001 (State.reset.setPc 0xFFE)) = (0x01, 0x1000) := by decide

/-- Vector F3. -/
theorem test_fetch_fault :
    (after State.reset (step (State.reset.setPc 0xFFF))).fault =
      { code := .addressOutOfRange, pc := 0xFFF, opcode := 0x10000, addr := 0x1000 } := by decide

/-- Vector F4. -/
theorem test_fetch_fault_addr : (after State.reset (step (State.reset.setPc 0x1002))).fault.addr = 0x1002 := by decide

/-- Vector F5: an odd `pc`. -/
theorem test_fetch_odd :
    (fun t : State => (t.getV 10, t.pc)) (run 0x6A55 (State.reset.setPc 0x201)) = (0x55, 0x203) := by decide

/-- Vector F8. -/
theorem test_sysAddr : result 0x0123 State.reset = .unknown 0x0123 0x200 ∧ (run 0x0123 State.reset).pc = 0x202 := by
  decide

/-- Vector F9. -/
theorem test_unknown_group5 :
    result 0x5121 State.reset = .unknown 0x5121 0x200 ∧ (run 0x5121 State.reset).pc = 0x202 := by decide

/-- Reset with nothing placed: the word 0x0000 at 0x200 is unknown (vector F6; log entry 7). -/
theorem test_reset_step : step State.reset = .next (State.reset.setPc 0x202) := by rfl

/-- Vector F16. -/
theorem test_halted_step :
    (fun s : State => after State.reset (step s) = s) (after State.reset (step (State.reset.setPc 0x1000))) := by decide

/-! ### Display -/

/-- Vector D1. -/
theorem test_cls :
    (fun t : State => (pixel t.fb 5 3, t.getV VF, t.pc)) (run 0x00E0 (dot 5 3 (regs [(15, 7)]))) =
      (false, 7, 0x202) := by decide

/-- Vector D5: wrap at the bottom edge. -/
theorem test_drw_wrap_y :
    (fun t : State => (pixel t.fb 10 31, pixel t.fb 10 0, t.getV VF))
      (run 0xD012 (put 0x300 [0x80, 0x80] ((regs [(0, 10), (1, 31)]).setI 0x300))) = (true, true, 0) := by decide

/-- Vector D9: the coordinate is the old VF. -/
theorem test_drw_vf_coordinate :
    (fun t : State => (pixel t.fb 10 0, t.getV VF))
      (run 0xDF11 (put 0x300 [0x80] ((regs [(15, 10)]).setI 0x300))) = (true, 0) := by decide

/-! ### Control flow -/

/-- Vector C6. -/
theorem test_ret :
    (fun t : State => (t.pc, t.sp, t.stack[0])) (run 0x00EE (depth 1 0x1000 (State.reset.setPc 0x300))) =
      (0x1000, 0, 0x1000) := by decide

/-- Vector C7. -/
theorem test_ret_underflow :
    (run 0x00EE (State.reset.setPc 0x300)).fault =
      { code := .stackUnderflow, pc := 0x300, opcode := 0x00EE, addr := 0 } := by decide

/-- Vector C2. -/
theorem test_jpAddr : (run 0x1201 State.reset).pc = 0x201 := by decide

/-- Vector C4. -/
theorem test_callAddr :
    (fun t : State => (t.pc, t.sp, t.stack[0])) (run 0x2300 State.reset) = (0x300, 1, 0x202) := by decide

/-- Vector C8. -/
theorem test_call_overflow :
    (fun t : State => (t.pc, t.sp, t.fault)) (run 0x2400 (depth 16 0x202 State.reset)) =
      (0x200, 16, { code := .stackOverflow, pc := 0x200, opcode := 0x2400, addr := 0 }) := by decide

/-- Vector C19. -/
theorem test_seVxByte : (run 0x3F2A (regs [(15, 0x2A)])).pc = 0x204 := by decide

/-- Vector C10. -/
theorem test_sneVxByte : (run 0x4500 (regs [(5, 1)])).pc = 0x204 := by decide

/-- Vector C13. -/
theorem test_seVxVy : (run 0x5120 (regs [(1, 7), (2, 8)])).pc = 0x202 := by decide

/-- Vector C15. -/
theorem test_sneVxVy : (run 0x9120 (regs [(1, 7), (2, 7)])).pc = 0x202 := by decide

/-- Vectors C16 and C17. -/
theorem test_jpV0Addr :
    (run 0xB123 (regs [(0, 0x10), (1, 0x99)])).pc = 0x133 ∧ (run 0xBFFF (regs [(0, 0xFF)])).pc = 0x10FE := by decide

/-! ### Registers and arithmetic -/

/-- Vector A1. -/
theorem test_ldVxByte : (run 0x6FFF State.reset).getV VF = 0xFF := by decide

/-- Vector A2. -/
theorem test_addVxByte :
    (fun t : State => (t.getV 0, t.getV VF)) (run 0x7001 (regs [(0, 0xFF), (15, 0x55)])) = (0, 0x55) := by decide

/-- Vector A5. -/
theorem test_ldVxVy :
    (fun t : State => (t.getV 0, t.getV 1)) (run 0x8010 (regs [(1, 0x55)])) = (0x55, 0x55) := by decide

/-- Vector A6. -/
theorem test_orVxVy :
    (fun t : State => (t.getV 0, t.getV VF)) (run 0x8011 (regs [(0, 0x0F), (1, 0xF0), (15, 0x77)])) =
      (0xFF, 0x77) := by decide

/-- Vector A7. -/
theorem test_andVxVy : (run 0x8012 (regs [(0, 0x3C), (1, 0x0F)])).getV 0 = 0x0C := by decide

/-- Vector A8. -/
theorem test_xorVxVy : (run 0x8013 (regs [(0, 0xFF), (1, 0x0F)])).getV 0 = 0xF0 := by decide

/-- Vector S2. -/
theorem test_addVxVy :
    (fun t : State => (t.getV 2, t.getV VF)) (run 0x8274 (regs [(2, 250), (7, 10)])) = (4, 1) := by decide

/-- Vector A14: the flag overwrites the result. -/
theorem test_addVxVy_vf : (run 0x8F14 (regs [(15, 0xFE), (1, 1)])).getV VF = 0 := by decide

/-- Vector S3. -/
theorem test_subVxVy :
    (fun t : State => (t.getV 2, t.getV VF)) (run 0x8275 (regs [(2, 5), (7, 10)])) = (251, 0) := by decide

/-- Vector A17: equal operands do not borrow. -/
theorem test_subVxVy_equal :
    (fun t : State => (t.getV 0, t.getV VF)) (run 0x8015 (regs [(0, 10), (1, 10)])) = (0, 1) := by decide

/-- Vector A23: `Y` is ignored. -/
theorem test_shrVxVy :
    (fun t : State => (t.getV 0, t.getV 1, t.getV VF)) (run 0x8016 (regs [(0, 4), (1, 0xFF)])) = (2, 0xFF, 0) := by
  decide

/-- Vector A26. -/
theorem test_subnVxVy :
    (fun t : State => (t.getV 0, t.getV VF)) (run 0x8017 (regs [(0, 10), (1, 5)])) = (0xFB, 0) := by decide

/-- Vector A31: the old bit 7 overwrites the result. -/
theorem test_shlVxVy : (run 0x8FFE (regs [(15, 0x81)])).getV VF = 1 := by decide

/-- Vector A33. -/
theorem test_rndVxByte : (run 0xC10F (State.reset.withDraw (some 0x5A))).getV 1 = 0x0A := by decide

/-- A passed draw is used by one step and is then gone (40_cycle.md R98). -/
theorem test_rnd_draw_used : (run 0xC10F (State.reset.withDraw (some 0x5A))).draw = none := by decide

/-! ### Index register and memory -/

/-- Vector M2. -/
theorem test_ldIAddr : (run 0xAFFF State.reset).I = 0xFFF := by decide

/-- Vectors M4 and M6. -/
theorem test_addIVx :
    (run 0xF01E ((regs [(0, 1)]).setI 0xFFF)).I = 0x1000 ∧ (run 0xF01E ((regs [(0, 0xFF)]).setI 0xFFFF)).I = 0x00FE := by
  decide

/-- Vectors M7 and M11. -/
theorem test_ldFVx : (run 0xF229 (regs [(2, 0x0A)])).I = 0x082 ∧ (run 0xF229 (regs [(2, 0xFF)])).I = 0x54B := by decide

/-- Vector S6. -/
theorem test_ldBVx :
    (fun t : State => (Memory.read t.mem 0x300, Memory.read t.mem 0x301, Memory.read t.mem 0x302, t.I))
      (run 0xF433 ((regs [(4, 157)]).setI 0x300)) = (1, 5, 7, 0x300) := by decide

/-- Vector M16: a faulting store writes nothing. -/
theorem test_ldBVx_fault :
    (fun t : State => (t.fault.opcode, t.fault.addr, Memory.read t.mem 0xFFE, Memory.read t.mem 0xFFF))
      (run 0xF033 (put 0xFFE [0xAA, 0xBB] ((regs [(0, 0x64)]).setI 0xFFE))) = (0xF033, 0x1000, 0xAA, 0xBB) := by decide

/-- Vector M19. -/
theorem test_ldMemIVx :
    (fun t : State => (Memory.read t.mem 0x400, Memory.read t.mem 0x401, Memory.read t.mem 0x402, Memory.read t.mem 0x403,
      t.I)) (run 0xF255 ((regs [(0, 1), (1, 2), (2, 3), (3, 4)]).setI 0x400)) = (1, 2, 3, 0, 0x400) := by decide

/-- Vector M24. -/
theorem test_ldVxMemI :
    (fun t : State => (t.getV 0, t.getV 1, t.getV 2, t.getV 3, t.I))
      (run 0xF265 (put 0x400 [1, 2, 3, 4] (State.reset.setI 0x400))) = (1, 2, 3, 0, 0x400) := by decide

/-- Vector M26. -/
theorem test_ldVxMemI_fault :
    (fun t : State => (t.fault.addr, t.getV 0, t.getV 1)) (run 0xF165 ((regs [(0, 0x33), (1, 0x44)]).setI 0xFFF)) =
      (0x1000, 0x33, 0x44) := by decide

/-! ### Keypad and timers -/

/-- Vectors K1 and K2. -/
theorem test_skpVx : (run 0xE19E (press 5 (regs [(1, 5)]))).pc = 0x204 ∧ (run 0xE19E (regs [(1, 5)])).pc = 0x202 := by
  decide

/-- Vector K5. -/
theorem test_skpVx_fault :
    (run 0xE19E (regs [(1, 0x10)])).fault = { code := .keyIndexOutOfRange, pc := 0x200, opcode := 0xE19E, addr := 0x10 } := by
  decide

/-- Vectors K3 and K4. -/
theorem test_sknpVx : (run 0xE1A1 (press 5 (regs [(1, 5)]))).pc = 0x202 ∧ (run 0xE1A1 (regs [(1, 5)])).pc = 0x204 := by
  decide

/-- Vector K7. -/
theorem test_ldVxK_waits :
    result 0xF30A (State.reset.setPc 0x210) = .waiting ∧ (run 0xF30A (State.reset.setPc 0x210)).pc = 0x210 := by decide

/-- Vector K8. -/
theorem test_ldVxK :
    (fun t : State => (t.getV 3, t.pc)) (run 0xF30A (press 12 (press 7 (State.reset.setPc 0x210)))) = (7, 0x212) := by
  decide

/-- Vector K11. -/
theorem test_ldVxDT : (run 0xF407 (State.reset.setDelay 0x3C)).getV 4 = 0x3C := by decide

/-- Vector K12. -/
theorem test_ldDTVx : (run 0xF415 (regs [(4, 0x3C)])).delay = 0x3C := by decide

/-- Vector K13. -/
theorem test_ldSTVx :
    (run 0xF418 (regs [(4, 2)])).sound = 2 ∧ soundActive (run 0xF418 (regs [(4, 2)])) = true := by decide

/-- Vectors T1 and T2. -/
theorem test_tick :
    (tick ((State.reset.setDelay 2).setSound 1)).delay = 1 ∧ (tick ((State.reset.setDelay 2).setSound 1)).sound = 0 ∧
    (tick State.reset).delay = 0 := by decide

/-- Vectors R2 and R5. -/
theorem test_load :
    (load [0x12, 0x00] State.reset).1 = .ok ∧ Memory.read (load [0x12, 0x00] State.reset).2.mem 0x200 = 0x12 ∧
    load [] State.reset = (.ok, State.reset) := by decide

/-- Vector R1, the zero bytes beside the font (the font's own bytes are PRESUMED). -/
theorem test_reset_zero_bytes :
    Memory.read State.reset.mem 0x000 = 0 ∧ Memory.read State.reset.mem 0x04F = 0 ∧
    Memory.read State.reset.mem 0x0A0 = 0 ∧ Memory.read State.reset.mem 0x200 = 0 ∧
    Memory.read State.reset.mem 0xFFF = 0 := by decide

/-- `withFetchWord` places a word so that the next step runs it (log entries 7 and 12). -/
theorem test_withFetchWord :
    (after State.reset (step (State.reset.withFetchWord 16 0x6A42))).getV 10 = 0x42 := by decide

/-! ### Witnesses: a state and operands that meet the hypotheses of each obligation -/

/-- A halted core: a fetch at 0xFFF. -/
def stopped : State := (State.reset.setPc 0xFFF).raiseFetch

/-- A core about to run `w` at 0xFFE, the last address a word can be fetched from. -/
def atEnd (w : Opcode) : State := (State.reset.setPc 0xFFE).placeOpcode w

theorem witness_InitialiseSetsEveryField : (0x04F < 0x050 ∨ 0x0A0 ≤ 0x04F) ∧ (0x0A0 < 0x050 ∨ 0x0A0 ≤ 0x0A0) := by decide

theorem witness_SetKeySetsOneKey : (15 : Fin 16).val = 15 ∧ 15 < 16 := by decide

theorem witness_LoadCopiesImage_ok :
    Memory.wf (atEnd 0x6001).mem = true ∧ (List.replicate 3584 (0xAB : Byte)).length ≤ 3584 ∧
    3583 < (List.replicate 3584 (0xAB : Byte)).length ∧ (0x1FF < 0x200 ∨ 0x200 + 3584 ≤ 0x1FF) ∧
    (0x1000 < 0x200 ∨ 0x200 + 3584 ≤ 0x1000) := by
  simp only [List.length_replicate]
  decide

theorem witness_LoadCopiesImage_oversize :
    Memory.wf (atEnd 0x6001).mem = true ∧ 3584 < (List.replicate 3585 (0xAB : Byte)).length := by
  simp only [List.length_replicate]
  decide

theorem witness_OnlyInitialiseLeavesHalted :
    stopped.halted = true ∧ step stopped = .next stopped ∧ HostOp.tick ≠ .init ∧
    perform Config.font .tick (some stopped) = .next (tick stopped, .nothing) ∧
    perform Config.font .init (some stopped) = .next (initialise Config.font, .nothing) :=
  ⟨rfl, rfl, by decide, rfl, rfl⟩

theorem witness_UninitialisedCoreRefusesAllButInitialise : HostOp.init = .init ∧ HostOp.step 0 ≠ .init := by decide

theorem witness_DecodeReadsBackEncode : (Instr.sysAddr 0x0E1).WellFormed ∧ (Instr.drwVxVyNibble 15 15 15).WellFormed := by
  decide

theorem witness_EncodeRestoresDecodedWord : decode 0xFF65 = .ok (.ldVxMemI 15) := by decide

theorem witness_DecodeTakesFirstMatchingRow :
    decode 0x00E0 = .ok .cls ∧ 0x00E0#16 &&& (rowOf (.sysAddr 0)).1 = (rowOf (.sysAddr 0)).2 ∧
    decode 0x8AB8 = .error .group8 := by decide

theorem witness_StepRunsDecodedInstruction :
    (atEnd 0x6001).halted = false ∧ (atEnd 0x6001).pc.toNat ≤ 0xFFE ∧
    decode (BitVec.ofNat 16 ((Memory.read (atEnd 0x6001).mem (atEnd 0x6001).pc.toNat).toNat * 256 +
      (Memory.read (atEnd 0x6001).mem ((atEnd 0x6001).pc.toNat + 1)).toNat)) = .ok (.ldVxByte 0 1) := by decide

theorem witness_FetchChecksRangeThenReadsBigEndian :
    (atEnd 0x6001).pc.toNat ≤ 0xFFE ∧ 0xFFE < (State.reset.setPc 0xFFF).pc.toNat ∧
    (State.reset.setPc 0xFFF).halted = false := by decide

theorem witness_UnknownOpcodeIsReportedAndSkipped :
    (atEnd 0x8AB8).halted = false ∧ (atEnd 0x8AB8).fetch = some 0x8AB8 ∧ decode 0x8AB8 = .error .group8 ∧
    (atEnd 0x0123).fetch = some 0x0123 ∧ decode 0x0123 = .ok (.sysAddr 0x123) := by decide

theorem witness_HaltedStepChangesNothing : stopped.halted = true := rfl

theorem witness_ReadOperationsChangeNothing :
    ∃ t, step (State.reset.setPc 0xFFF) = .next t ∧ t.halted = true := ⟨_, rfl, by decide⟩

theorem witness_StepResultIsOneOfFour_fatal :
    ∃ t, step (State.reset.setPc 0xFFF) = .next t ∧ resultOf (State.reset.setPc 0xFFF) t = .fatal t.fault :=
  ⟨_, rfl, by decide⟩

theorem witness_StepResultIsOneOfFour_waiting :
    ∃ t, step (atEnd 0xF30A) = .next t ∧ resultOf (atEnd 0xF30A) t = .waiting := ⟨_, rfl, by decide⟩

theorem witness_StepResultIsOneOfFour_unknown :
    ∃ t, step (atEnd 0x0000) = .next t ∧ resultOf (atEnd 0x0000) t = .unknown 0x0000 0xFFE := ⟨_, rfl, by decide⟩

theorem witness_StepResultIsOneOfFour_ok :
    ∃ t, step (atEnd 0x6001) = .next t ∧ resultOf (atEnd 0x6001) t = .ok := ⟨_, rfl, by decide⟩

theorem witness_FatalConditionsAreExactlyThese_fetch :
    (State.reset.setPc 0xFFF).halted = false ∧ (State.reset.setPc 0xFFF).fetch = none ∧
    ∃ t, step (State.reset.setPc 0xFFF) = .next t := ⟨rfl, by decide, _, rfl⟩

theorem witness_FatalConditionsAreExactlyThese_unknown :
    (atEnd 0x8AB8).halted = false ∧ (atEnd 0x8AB8).fetch = some 0x8AB8 ∧ decode 0x8AB8 = .error .group8 ∧
    ∃ t, step (atEnd 0x8AB8) = .next t := ⟨rfl, by decide, by decide, _, rfl⟩

theorem witness_FatalConditionsAreExactlyThese_call :
    (depth 16 2 State.reset).halted = false ∧ (∃ t, exec (.callAddr 0) (depth 16 2 State.reset) = .next t ∧ t.halted = true) ∧
    ∃ t, exec (.callAddr 0) (depth 15 2 State.reset) = .next t ∧ t.halted = false :=
  ⟨rfl, ⟨_, rfl, by decide⟩, _, rfl, by decide⟩

theorem witness_FatalConditionsAreExactlyThese_ret :
    (∃ t, exec .ret State.reset = .next t ∧ t.halted = true) ∧
    ∃ t, exec .ret (depth 1 2 State.reset) = .next t ∧ t.halted = false :=
  ⟨⟨_, rfl, by decide⟩, _, rfl, by decide⟩

theorem witness_FatalConditionsAreExactlyThese_drw :
    (∃ t, exec (.drwVxVyNibble 0 0 3) (State.reset.setI 0xFFE) = .next t ∧ t.halted = true) ∧
    (∃ t, exec (.drwVxVyNibble 0 0 3) (State.reset.setI 0xFFD) = .next t ∧ t.halted = false) ∧
    ∃ t, exec (.drwVxVyNibble 0 0 0) (State.reset.setI 0xFFFF) = .next t ∧ t.halted = false :=
  ⟨⟨_, rfl, by decide⟩, ⟨_, rfl, by decide⟩, _, rfl, by decide⟩

theorem witness_FatalConditionsAreExactlyThese_bcd :
    (∃ t, exec (.ldBVx 0) (State.reset.setI 0xFFE) = .next t ∧ t.halted = true) ∧
    ∃ t, exec (.ldBVx 0) (State.reset.setI 0xFFD) = .next t ∧ t.halted = false :=
  ⟨⟨_, rfl, by decide⟩, _, rfl, by decide⟩

theorem witness_FatalConditionsAreExactlyThese_blocks :
    (∃ t, exec (.ldMemIVx 1) (State.reset.setI 0xFFF) = .next t ∧ t.halted = true) ∧
    (∃ t, exec (.ldMemIVx 1) (State.reset.setI 0xFFE) = .next t ∧ t.halted = false) ∧
    (∃ t, exec (.ldVxMemI 1) (State.reset.setI 0xFFF) = .next t ∧ t.halted = true) ∧
    ∃ t, exec (.ldVxMemI 1) (State.reset.setI 0xFFE) = .next t ∧ t.halted = false :=
  ⟨⟨_, rfl, by decide⟩, ⟨_, rfl, by decide⟩, ⟨_, rfl, by decide⟩, _, rfl, by decide⟩

theorem witness_FatalConditionsAreExactlyThese_keys :
    (∃ t, exec (.skpVx 1) (regs [(1, 0x10)]) = .next t ∧ t.halted = true) ∧
    (∃ t, exec (.skpVx 1) (regs [(1, 0xF)]) = .next t ∧ t.halted = false) ∧
    (∃ t, exec (.sknpVx 1) (regs [(1, 0x10)]) = .next t ∧ t.halted = true) ∧
    ∃ t, exec (.sknpVx 1) (regs [(1, 0xF)]) = .next t ∧ t.halted = false :=
  ⟨⟨_, rfl, by decide⟩, ⟨_, rfl, by decide⟩, ⟨_, rfl, by decide⟩, _, rfl, by decide⟩

theorem witness_FatalStepIsPrecise_instruction :
    (atEnd 0x00EE).halted = false ∧ (atEnd 0x00EE).fetch = some 0x00EE ∧
    ∃ t, step (atEnd 0x00EE) = .next t ∧ t.halted = true := ⟨rfl, by decide, _, rfl, by decide⟩

theorem witness_FatalStepIsPrecise_fetch :
    (State.reset.setPc 0xFFF).halted = false ∧ (State.reset.setPc 0xFFF).fetch = none ∧
    ∃ t, step (State.reset.setPc 0xFFF) = .next t ∧ t.halted = true := ⟨rfl, by decide, _, rfl, by decide⟩

/-- A state that is not reset and meets the invariant: a stored word, `pc` at its bound. -/
theorem witness_StepKeepsInvariant_running :
    Inv ((atEnd 0x6001).setPc 0x10FE) ∧ ∃ t, step ((atEnd 0x6001).setPc 0x10FE) = .next t :=
  ⟨⟨by decide, by decide, by decide, by decide, by decide, by decide, by decide, by decide⟩, _, rfl⟩

theorem witness_StepKeepsInvariant_halted : Inv stopped ∧ step stopped = .next stopped :=
  ⟨⟨by decide, by decide, by decide, by decide, by decide, by decide, by decide, by decide⟩, rfl⟩

theorem witness_HostOperationsKeepInvariant :
    Inv stopped ∧ perform Config.font .tick (some stopped) = .next (tick stopped, .nothing) :=
  ⟨witness_StepKeepsInvariant_halted.1, rfl⟩

theorem witness_StrictStepIsStepThatDoesNotHalt :
    (∃ t, step (atEnd 0x6001) = .next t ∧ t.halted = false) ∧ ∃ t, step (atEnd 0x00EE) = .next t ∧ t.halted = true :=
  ⟨⟨_, rfl, by decide⟩, _, rfl, by decide⟩

/-- A word that matches the row, for each clause of the form `w &&& mask = match → decode w = …`. -/
theorem witness_rows :
    0x00E0#16 &&& 0xFFFF#16 = 0x00E0#16 ∧ 0x00EE#16 &&& 0xFFFF#16 = 0x00EE#16 ∧ 0x1FFF#16 &&& 0xF000#16 = 0x1000#16 ∧
    0x2FFF#16 &&& 0xF000#16 = 0x2000#16 ∧ 0x3FFF#16 &&& 0xF000#16 = 0x3000#16 ∧ 0x4FFF#16 &&& 0xF000#16 = 0x4000#16 ∧
    0x5FF0#16 &&& 0xF00F#16 = 0x5000#16 ∧ 0x6FFF#16 &&& 0xF000#16 = 0x6000#16 ∧ 0x7FFF#16 &&& 0xF000#16 = 0x7000#16 ∧
    0x8FF0#16 &&& 0xF00F#16 = 0x8000#16 ∧ 0x8FF1#16 &&& 0xF00F#16 = 0x8001#16 ∧ 0x8FF2#16 &&& 0xF00F#16 = 0x8002#16 ∧
    0x8FF3#16 &&& 0xF00F#16 = 0x8003#16 ∧ 0x8FF4#16 &&& 0xF00F#16 = 0x8004#16 ∧ 0x8FF5#16 &&& 0xF00F#16 = 0x8005#16 ∧
    0x8FF6#16 &&& 0xF00F#16 = 0x8006#16 ∧ 0x8FF7#16 &&& 0xF00F#16 = 0x8007#16 ∧ 0x8FFE#16 &&& 0xF00F#16 = 0x800E#16 ∧
    0x9FF0#16 &&& 0xF00F#16 = 0x9000#16 ∧ 0xAFFF#16 &&& 0xF000#16 = 0xA000#16 ∧ 0xBFFF#16 &&& 0xF000#16 = 0xB000#16 ∧
    0xCFFF#16 &&& 0xF000#16 = 0xC000#16 ∧ 0xDFFF#16 &&& 0xF000#16 = 0xD000#16 ∧ 0xEF9E#16 &&& 0xF0FF#16 = 0xE09E#16 ∧
    0xEFA1#16 &&& 0xF0FF#16 = 0xE0A1#16 ∧ 0xFF07#16 &&& 0xF0FF#16 = 0xF007#16 ∧ 0xFF0A#16 &&& 0xF0FF#16 = 0xF00A#16 ∧
    0xFF15#16 &&& 0xF0FF#16 = 0xF015#16 ∧ 0xFF18#16 &&& 0xF0FF#16 = 0xF018#16 ∧ 0xFF1E#16 &&& 0xF0FF#16 = 0xF01E#16 ∧
    0xFF29#16 &&& 0xF0FF#16 = 0xF029#16 ∧ 0xFF33#16 &&& 0xF0FF#16 = 0xF033#16 ∧ 0xFF55#16 &&& 0xF0FF#16 = 0xF055#16 ∧
    0xFF65#16 &&& 0xF0FF#16 = 0xF065#16 := by decide

/-- `N` = 0 with `I` = 0xFFFF (vector D10), and three rows that end at 0xFFF (vector D11). -/
theorem witness_DrwDrawsSpriteByXor_draws :
    ((0 : Nibble).toNat = 0 ∨ (State.reset.setI 0xFFFF).I.toNat + (0 : Nibble).toNat - 1 ≤ 0xFFF) ∧
    ((3 : Nibble).toNat = 0 ∨ (State.reset.setI 0xFFD).I.toNat + (3 : Nibble).toNat - 1 ≤ 0xFFF) := by decide

/-- A sprite bit at column 7 of row 0 drawn at (62, 31), which wraps to column 5, and a pixel the sprite does not reach. -/
theorem witness_DrwDrawsSpriteByXor_pixels :
    (0 < (1 : Nibble).toNat ∧ 7 < 8 ∧ (5 : Fin 64).val = ((regs [(0, 62), (1, 31)]).V[(0 : Reg)].toNat + 7) % 64 ∧
      (31 : Fin 32).val = ((regs [(0, 62), (1, 31)]).V[(1 : Reg)].toNat + 0) % 32) ∧
    ∀ row < (1 : Nibble).toNat, ∀ col < 8,
      ¬ ((6 : Fin 64).val = ((regs [(0, 62), (1, 31)]).V[(0 : Reg)].toNat + col) % 64 ∧
        (31 : Fin 32).val = ((regs [(0, 62), (1, 31)]).V[(1 : Reg)].toNat + row) % 32) := by decide

/-- Vector D7: a set sprite bit on a set pixel; and the same sprite over a clear framebuffer. -/
theorem witness_DrwDrawsSpriteByXor_collision :
    (Memory.read (put 0x300 [0x08] State.reset).mem 0x300).getLsbD (7 - 4) = true ∧
    pixel (dot 4 0 State.reset).fb 4 0 = true ∧ pixel State.reset.fb 4 0 = false := by decide

theorem witness_DrwDrawsSpriteByXor_fault :
    (3 : Nibble).toNat ≠ 0 ∧ 0xFFF < (State.reset.setI 0xFFE).I.toNat + (3 : Nibble).toNat - 1 := by decide

/-- Vectors D2 and D3 with a one-row sprite: the state after the first draw meets what is asked before the second. -/
theorem witness_DoubleDrawRestoresFramebuffer :
    ∃ t, exec (.drwVxVyNibble 0 0 1) ((put 0x300 [0x80] State.reset).setI 0x300) = .next t ∧
      ((1 : Nibble).toNat = 0 ∨ ((put 0x300 [0x80] State.reset).setI 0x300).I.toNat + (1 : Nibble).toNat - 1 ≤ 0xFFF) ∧
      t.I = 0x300 ∧ t.V[(0 : Reg)] = ((put 0x300 [0x80] State.reset).setI 0x300).V[(0 : Reg)] ∧
      ∀ row < (1 : Nibble).toNat,
        Memory.read t.mem (0x300 + row) = Memory.read ((put 0x300 [0x80] State.reset).setI 0x300).mem (0x300 + row) :=
  ⟨_, rfl, by decide, by decide, by decide, by decide⟩

theorem witness_RetPopsReturnAddress :
    (depth 1 2 State.reset).sp.val = (0 : Fin 16).val + 1 ∧ (depth 16 2 State.reset).sp.val = (15 : Fin 16).val + 1 ∧
    State.reset.sp = 0 := by decide

theorem witness_CallPushesReturnAddress :
    State.reset.sp = (0 : Fin 16).castSucc ∧ (depth 15 2 State.reset).sp = (15 : Fin 16).castSucc ∧
    (depth 16 2 State.reset).sp = 16 := by decide

theorem witness_CallThenReturnRoundTrip :
    (depth 15 2 State.reset).sp.val < 16 ∧
    ∃ t, exec (.callAddr 0x300) (depth 15 2 State.reset) = .next t ∧ t.sp = 16 ∧
      (15 : Fin 16).val = (depth 15 2 State.reset).sp.val := ⟨by decide, _, rfl, by decide, by decide⟩

theorem witness_FlagWrittenLastSurvivesInVF :
    (∃ t, exec (.addVxVy VF 1) (regs [(15, 0xFF), (1, 2)]) = .next t) ∧
    (∃ t, exec (.subVxVy VF 1) (regs [(15, 5), (1, 3)]) = .next t) ∧
    (∃ t, exec (.subnVxVy VF 1) (regs [(15, 5), (1, 3)]) = .next t) ∧
    (∃ t, exec (.shrVxVy VF 1) (regs [(15, 2)]) = .next t) ∧ (∃ t, exec (.shlVxVy VF 1) (regs [(15, 0x81)]) = .next t) ∧
    (0 : Reg) ≠ VF ∧ (∃ t, exec (.addVxVy 0 VF) (regs [(0, 0x10), (15, 1)]) = .next t) ∧
    (∃ t, exec (.subVxVy 0 VF) (regs [(0, 0x10), (15, 1)]) = .next t) ∧
    ∃ t, exec (.subnVxVy 0 VF) (regs [(0, 0x10), (15, 1)]) = .next t :=
  ⟨⟨_, rfl⟩, ⟨_, rfl⟩, ⟨_, rfl⟩, ⟨_, rfl⟩, ⟨_, rfl⟩, by decide, ⟨_, rfl⟩, ⟨_, rfl⟩, _, rfl⟩

theorem witness_StoreDecimalDigits :
    (Memory.wf (atEnd 0x6001).mem = true ∧ ((atEnd 0x6001).setI 0xFFD).I.toNat + 2 ≤ 0xFFF ∧
      indexed ((atEnd 0x6001).setI 0xFFD) 0 = 0xFFD ∧ (0xFFC < 0xFFD ∨ 0xFFD + 3 ≤ 0xFFC) ∧
      (0x1000 < 0xFFD ∨ 0xFFD + 3 ≤ 0x1000)) ∧
    0xFFF < ((atEnd 0x6001).setI 0xFFE).I.toNat + 2 := by decide

theorem witness_StoreRegisterBlock :
    (Memory.wf (atEnd 0x6001).mem = true ∧ ((atEnd 0x6001).setI 0xFF0).I.toNat + (15 : Reg).val ≤ 0xFFF ∧
      indexed ((atEnd 0x6001).setI 0xFF0) 0 = 0xFF0 ∧ (15 : Reg) ≤ 15 ∧ (0xFEF < 0xFF0 ∨ 0xFF0 + 15 + 1 ≤ 0xFEF) ∧
      (0x1000 < 0xFF0 ∨ 0xFF0 + 15 + 1 ≤ 0x1000)) ∧
    0xFFF < ((atEnd 0x6001).setI 0xFF1).I.toNat + (15 : Reg).val := by decide

theorem witness_LoadRegisterBlock :
    (State.reset.setI 0xFFF).I.toNat + (0 : Reg).val ≤ 0xFFF ∧ (0 : Reg) ≤ 0 ∧ (0 : Reg) < 1 ∧
    0xFFF < (State.reset.setI 0xFFF).I.toNat + (1 : Reg).val := by decide

theorem witness_StoreThenLoadRoundTrip :
    Memory.wf (State.reset.setI 0xFFE).mem = true ∧ (State.reset.setI 0xFFE).I.toNat + (1 : Reg).val ≤ 0xFFF ∧
    ∃ t, exec (.ldMemIVx 1) (State.reset.setI 0xFFE) = .next t ∧ t.I = (State.reset.setI 0xFFE).I :=
  ⟨by decide, by decide, _, rfl, by decide⟩

theorem witness_SkipsOnKey :
    (regs [(1, 0xF)]).V[(1 : Reg)].toNat = (15 : Fin 16).val ∧ 0xF < (regs [(1, 0x10)]).V[(1 : Reg)].toNat := by decide

theorem witness_WaitForKeyStoresLeastPressed :
    ((press 15 State.reset).key[(15 : Fin 16)] = true ∧ ∀ j : Fin 16, j < 15 → (press 15 State.reset).key[j] = false) ∧
    ∀ k : Fin 16, State.reset.key[k] = false := by decide

theorem witness_StepNeverTicksOrWritesKeypad :
    (∃ t, step ((regs [(4, 9)]).placeOpcode 0xF415) = .next t ∧ t.delay ≠ (regs [(4, 9)]).delay) ∧
    ∃ t, step ((regs [(4, 9)]).placeOpcode 0xF418) = .next t ∧ t.sound ≠ (regs [(4, 9)]).sound :=
  ⟨⟨_, rfl, by decide⟩, _, rfl, by decide⟩

theorem witness_OnlyClsAndDrwWriteFramebuffer :
    ∃ t, step ((dot 4 0 State.reset).placeOpcode 0x00E0) = .next t ∧ t.fb ≠ (dot 4 0 State.reset).fb :=
  ⟨_, rfl, by decide⟩

theorem witness_OnlyStoresWriteMemory :
    (∃ t, step (((regs [(0, 9)]).setI 0x300).placeOpcode 0xF033) = .next t ∧
      Memory.read t.mem 0x302 ≠ Memory.read (((regs [(0, 9)]).setI 0x300).placeOpcode 0xF033).mem 0x302) ∧
    ∃ t, step (((regs [(1, 9)]).setI 0xFFE).placeOpcode 0xF155) = .next t ∧
      Memory.read t.mem 0xFFF ≠ Memory.read (((regs [(1, 9)]).setI 0xFFE).placeOpcode 0xF155).mem 0xFFF :=
  ⟨⟨_, rfl, by decide⟩, _, rfl, by decide⟩

theorem witness_OnlyCallAndRetUseStack :
    (∃ t, step (State.reset.placeOpcode 0x2300) = .next t ∧ t.sp ≠ State.reset.sp ∧
      t.stack[(0 : Fin 16)] ≠ State.reset.stack[(0 : Fin 16)]) ∧
    ∃ t, step ((depth 1 2 State.reset).placeOpcode 0x00EE) = .next t ∧ t.sp ≠ (depth 1 2 State.reset).sp :=
  ⟨⟨_, rfl, by decide, by decide⟩, _, rfl, by decide⟩

theorem witness_RegistersWrittenByEachInstruction :
    (∃ t, exec (.addVxVy 0 1) (regs [(0, 0xFF), (1, 2)]) = .next t ∧
      t.V[(0 : Reg)] ≠ (regs [(0, 0xFF), (1, 2)]).V[(0 : Reg)] ∧ t.V[VF] ≠ (regs [(0, 0xFF), (1, 2)]).V[VF]) ∧
    ∃ t, exec (.ldVxDT 3) (State.reset.setDelay 7) = .next t ∧
      t.V[(3 : Reg)] ≠ (State.reset.setDelay 7).V[(3 : Reg)] := ⟨⟨_, rfl, by decide, by decide⟩, _, rfl, by decide⟩

theorem witness_IndexRegisterWriters :
    (∃ t, exec (.ldIAddr 0x2F0) State.reset = .next t ∧ t.I ≠ State.reset.I) ∧
    (∃ t, exec (.addIVx 1) (regs [(1, 4)]) = .next t ∧ t.I ≠ (regs [(1, 4)]).I) ∧
    ∃ t, exec (.ldFVx 1) State.reset = .next t ∧ t.I ≠ State.reset.I :=
  ⟨⟨_, rfl, by decide⟩, ⟨_, rfl, by decide⟩, _, rfl, by decide⟩

theorem witness_PcChangeOfEachInstruction :
    ((atEnd 0x8AB8).halted = false ∧ (atEnd 0x8AB8).fetch = some 0x8AB8 ∧ decode 0x8AB8 = .error .group8) ∧
    State.reset.halted = false ∧ (∃ t, exec (.callAddr 0xFFF) State.reset = .next t ∧ t.halted = false) ∧
    (∃ t, exec .ret State.reset = .next t ∧ t.halted = true) ∧
    (∃ t, exec .ret (depth 1 2 State.reset) = .next t ∧ t.halted = false ∧
      (depth 1 2 State.reset).sp.val = (0 : Fin 16).val + 1) ∧
    (∃ t, exec (.skpVx 1) (regs [(1, 0xF)]) = .next t ∧ t.halted = false ∧
      (regs [(1, 0xF)]).V[(1 : Reg)].toNat = (15 : Fin 16).val) ∧
    (∃ t, exec (.ldVxK 1) (press 0 State.reset) = .next t ∧ t.halted = false ∧
      (press 0 State.reset).key[(0 : Fin 16)] = true) ∧
    ∃ t, exec (.ldVxK 1) State.reset = .next t ∧ t.halted = false ∧ ∀ k : Fin 16, State.reset.key[k] = false :=
  ⟨by decide, rfl, ⟨_, rfl, by decide⟩, ⟨_, rfl, by decide⟩, ⟨_, rfl, by decide, by decide⟩,
    ⟨_, rfl, by decide, by decide⟩, ⟨_, rfl, by decide, by decide⟩, _, rfl, by decide, by decide⟩

theorem witness_DrawMattersOnlyToRnd :
    (∀ w x nn, (atEnd 0x6001).fetch = some w → decode w ≠ .ok (.rndVxByte x nn)) ∧
    ∃ t, step { atEnd 0x6001 with draw := some 0xB7 } = .next t := by
  refine ⟨fun w x nn h hd => ?_, _, rfl⟩
  rw [show (atEnd 0x6001).fetch = some 0x6001 by decide] at h
  cases h
  rw [show decode 0x6001 = .ok (.ldVxByte 0 1) by decide] at hd
  cases hd

end Sys2Proof.Tests
end

/-! # Every operation of the host keeps the invariant (O25)

The invariant speaks of memory, `pc`, the stack, `halted` and the fault record only. A step either raises a fatal
condition or has an `Effect` (`exec_cases`), and each of these keeps the invariant; the host's other operations write
memory inside the address space, or nothing the invariant speaks of. -/

namespace Sys2Proof

open Machine

section
variable {s t : State}

/-! ### Updates that leave most of the state alone -/

/-- The invariant reads nothing but memory, `pc`, the stack, `halted` and the fault record. -/
theorem Inv.of_fields_eq (hs : Inv s) (mem : t.mem = s.mem) (pc : t.pc = s.pc) (stack : t.stack = s.stack)
    (halted : t.halted = s.halted) (fault : t.fault = s.fault) : Inv t := by
  cases s; cases t
  subst mem pc stack halted fault
  exact { hs with }

/-- Replacing memory by a canonical one keeps the invariant. -/
theorem Inv.with_mem {m : Memory} (hs : Inv s) (hm : Memory.wf m = true) : Inv { s with mem := m } :=
  { hs with memory := hm }

theorem Inv.withDraw (hs : Inv s) (r : Option Byte) : Inv (s.withDraw r) := hs.of_fields_eq rfl rfl rfl rfl rfl

theorem Inv.tick (hs : Inv s) : Inv (tick s) := hs.of_fields_eq rfl rfl rfl rfl rfl

theorem Inv.setKey (hs : Inv s) (k : Fin 16) (b : Bool) : Inv (setKey k b s) :=
  hs.of_fields_eq rfl rfl rfl rfl rfl

/-- An accepted image ends at 0x1000 at the latest (70_reset_and_hazards.md R203). -/
theorem Inv.load (hs : Inv s) (image : List Byte) : Inv (load image s).2 := by
  unfold Machine.load
  split
  · exact hs
  · exact hs.with_mem (Memory.wf_writeBlock image hs.memory (by omega))

theorem inv_reset : Inv State.reset where
  memory := rfl
  pcBound := by decide
  stackBound := by decide
  haltedIff := by decide
  haltedPc := by decide
  faultAddr := rfl
  faultNone _ := rfl
  faultOpcode := by decide

theorem inv_initialise (font : Vector Byte 80) : Inv (initialise font) :=
  inv_reset.with_mem (Memory.wf_writeBlock font.toList rfl (by simp))

/-! ### Fatal conditions -/

theorem faultAddrOk_of_fatalArgs {c : FatalCode} {a pc : Word} {op : BitVec 17} (h : FatalArgs c a) :
    faultAddrOk { code := c, pc := pc, opcode := op, addr := a } = true := by
  rcases h with ⟨rfl, rfl⟩ | ⟨rfl, rfl⟩ | ⟨rfl, ha⟩ | ⟨rfl, ha⟩
  · rfl
  · rfl
  · simpa [faultAddrOk] using ha
  · simpa [faultAddrOk] using ha

theorem code_ne_none_of_fatalArgs {c : FatalCode} {a : Word} (h : FatalArgs c a) : c ≠ .none := by
  rcases h with ⟨rfl, _⟩ | ⟨rfl, _⟩ | ⟨rfl, _⟩ | ⟨rfl, _⟩ <;> decide

/-- A fatal condition records the `pc` it keeps, and a code that is not the reset one. -/
theorem Inv.raiseFatal {op : BitVec 17} {c : FatalCode} {a : Word} (hs : Inv s) (hop : op.toNat ≤ 0x10000)
    (h : FatalArgs c a) : Inv (s.raiseFatal op c a) where
  memory := hs.memory
  pcBound := hs.pcBound
  stackBound := hs.stackBound
  haltedIff := iff_of_true rfl (code_ne_none_of_fatalArgs h)
  haltedPc _ := rfl
  faultAddr := faultAddrOk_of_fatalArgs h
  faultNone hn := absurd hn (code_ne_none_of_fatalArgs h)
  faultOpcode := hop

theorem Inv.raiseFetch (hs : Inv s) : Inv s.raiseFetch := by
  have ha : 0x1000 ≤ (firstOutOfRange s.pc.toNat).toNat := by
    rw [firstOutOfRange_toNat s.pc.isLt]
    omega
  exact hs.raiseFatal (by decide) (.inr (.inr (.inl ⟨rfl, ha⟩)))

theorem Inv.raisedIn {i : Instr} (hs : Inv s) (h : RaisedIn i s t) : Inv t := by
  obtain ⟨c, a, hca, rfl⟩ := h
  refine hs.raiseFatal ?_ hca
  rw [BitVec.toNat_setWidth]
  have := (encode i).isLt
  omega

/-! ### Instructions that raise nothing -/

/-- An opcode is fetched from 0xFFE at the highest, so neither `pc + 2` nor `pc + 4` leaves the bound of R27. -/
theorem Inv.pc_bound_of_effect (hs : Inv s) (hpc : s.pc.toNat ≤ 0xFFE) (e : Effect s t) : t.pc.toNat ≤ 0x10FE := by
  rcases e.pc with h | h | h | h | ⟨k, h⟩
  · exact h ▸ hs.pcBound
  · rw [h]; bv_omega
  · rw [h]; bv_omega
  · exact h
  · exact h ▸ (hs.stackBound k).trans (by decide)

/-- The one entry an instruction may write is its return address, at most 0x1000. -/
theorem Inv.stack_bound_of_effect (hs : Inv s) (hpc : s.pc.toNat ≤ 0xFFE) (e : Effect s t) (k : Fin 16) :
    t.stack[k].toNat ≤ 0x1000 := by
  rcases e.stack with h | ⟨j, h⟩
  · exact h ▸ hs.stackBound k
  · have hret : (s.pc + 2).toNat ≤ 0x1000 := by bv_omega
    have hk := hs.stackBound k
    rw [h, Fin.getElem_fin, Vector.getElem_set j.isLt k.isLt]
    split
    · exact hret
    · exact hk

theorem Inv.wf_mem_of_effect (hs : Inv s) (e : Effect s t) : Memory.wf t.mem = true := by
  rcases e.mem with h | ⟨a, bs, hlen, h⟩
  · exact h ▸ hs.memory
  · exact h ▸ Memory.wf_writeBlock bs hs.memory hlen

theorem Inv.effect (hs : Inv s) (hrun : s.halted = false) (hpc : s.pc.toNat ≤ 0xFFE) (e : Effect s t) : Inv t where
  memory := hs.wf_mem_of_effect e
  pcBound := hs.pc_bound_of_effect hpc e
  stackBound := hs.stack_bound_of_effect hpc e
  haltedIff := by rw [e.halted, e.fault]; exact hs.haltedIff
  haltedPc h := absurd (e.halted.symm.trans h) (by simp [hrun])
  faultAddr := e.fault ▸ hs.faultAddr
  faultNone := by rw [e.fault]; exact hs.faultNone
  faultOpcode := e.fault ▸ hs.faultOpcode

theorem effect_skipUnknown (s : State) : Effect s s.skipUnknown :=
  ⟨.inl rfl, .inr (.inl rfl), .inl rfl, rfl, rfl, rfl⟩

/-! ### Steps and operations -/

theorem pc_le_of_fetch_eq_some {w : Opcode} (h : s.fetch = some w) : s.pc.toNat ≤ 0xFFE := by
  by_contra hpc
  rw [fetch_eq_none.mpr (by omega)] at h
  cases h

/-- Every step keeps the invariant, in each of the four cases of 40_cycle.md R90. -/
theorem Inv.step (hs : Inv s) (h : step s = .next t) : Inv t := by
  rcases step_cases h with ⟨_, rfl⟩ | ⟨_, _, rfl⟩ | ⟨w, i, hrun, hf, _, he⟩ | ⟨w, g, hrun, hf, _, rfl⟩
  · exact hs
  · exact hs.raiseFetch
  · rcases exec_cases he with e | r
    · exact hs.effect hrun (pc_le_of_fetch_eq_some hf) e
    · exact hs.raisedIn r
  · exact hs.effect hrun (pc_le_of_fetch_eq_some hf) (effect_skipUnknown s)

/-- A `step(r)` that answers is a step with the draw put in, and the draw taken out again. -/
theorem stepWith_eq_next {r : Byte} (h : stepWith r s = .next t) :
    ∃ u, Machine.step (s.withDraw (some r)) = .next u ∧ t = u.withDraw none := by
  unfold stepWith at h
  split at h
  · next u hu => cases h; exact ⟨u, hu, rfl⟩
  · cases h
  · cases h

theorem Inv.stepWith {r : Byte} (hs : Inv s) (h : stepWith r s = .next t) : Inv t := by
  obtain ⟨u, hu, rfl⟩ := stepWith_eq_next h
  exact ((hs.withDraw (some r)).step hu).withDraw none

theorem Inv.performOn {font : Vector Byte 80} {op : HostOp} {a : HostAnswer} (hs : Inv s)
    (h : performOn font op s = .next (t, a)) : Inv t := by
  cases op with
  | init => cases h; exact inv_initialise font
  | load image => cases h; exact hs.load image
  | step r =>
    simp only [Machine.performOn] at h
    split at h
    · next u hu => cases h; exact hs.stepWith hu
    · cases h
    · cases h
  | tick => cases h; exact hs.tick
  | setKey k b =>
    simp only [Machine.performOn] at h
    split at h
    · next hk => cases h; exact hs.setKey ⟨k, hk⟩ b
    · cases h
  | readFramebuffer => cases h; exact hs
  | readDelay => cases h; exact hs
  | readSound => cases h; exact hs
  | readFault => cases h; exact hs

end

/-- Settles O25: on an initialised core `perform` is `performOn`, and each operation keeps the invariant. -/
theorem hostOperationsKeepInvariant : Obligations.HostOperationsKeepInvariant := by
  unfold Obligations.HostOperationsKeepInvariant
  intro font op s t a hs h
  exact hs.performOn h

end Sys2Proof

/-! # What a step keeps: the invariant, and the state no instruction but its writers changes
(O23, O24, O54, O56, O57, O58)

The invariant at reset and over a step is `inv_reset` and `Inv.step` above. The writers of the registers, the stack and
the framebuffer are said once, in `Footprint`: `exec_footprint` shows it of every instruction, and the other cases of
a step write none of these parts (`step_footprint`). -/

namespace Sys2Proof

open Machine

/-- Settles O23: every part of the invariant is a fact about the fixed reset state (`inv_reset`). -/
theorem resetMeetsInvariant : Obligations.ResetMeetsInvariant := inv_reset

/-- Settles O24: by the four cases of a step, of which an instruction either raises or has an `Effect`. -/
theorem stepKeepsInvariant : Obligations.StepKeepsInvariant := by
  unfold Obligations.StepKeepsInvariant
  intro s t hs h
  exact hs.step h

/-! ### The parts of the state with named writers -/

/-- `t` has the general registers, `I`, the stack and the framebuffer of `s`. -/
structure Keeps (s t : State) : Prop where
  V : t.V = s.V
  I : t.I = s.I
  sp : t.sp = s.sp
  stack : t.stack = s.stack
  fb : t.fb = s.fb

/-- The general registers an instruction may write: the table of 10_state.md R21. -/
def WritesV (i : Instr) (k : Reg) : Prop :=
  match i with
  | .ldVxByte x _ | .addVxByte x _ | .ldVxVy x _ | .orVxVy x _ | .andVxVy x _ | .xorVxVy x _ | .rndVxByte x _
  | .ldVxDT x | .ldVxK x => k = x
  | .addVxVy x _ | .subVxVy x _ | .subnVxVy x _ | .shrVxVy x _ | .shlVxVy x _ => k = x ∨ k = VF
  | .drwVxVyNibble _ _ _ => k = VF
  | .ldVxMemI x => k ≤ x
  | _ => False

/-- Each part of the state is kept, or `i` is one of its writers: V (10_state.md R21), `I` (R24), the stack (R28 to
R30), the framebuffer (R32). -/
structure Footprint (i : Instr) (s t : State) : Prop where
  V : ∀ k : Reg, t.V[k] = s.V[k] ∨ WritesV i k
  I : t.I = s.I ∨ (∃ nnn, i = .ldIAddr nnn) ∨ (∃ x, i = .addIVx x) ∨ ∃ x, i = .ldFVx x
  sp : t.sp = s.sp ∨ i = .ret ∨ ∃ nnn, i = .callAddr nnn
  stack : ∀ k : Fin 16, t.stack[k] = s.stack[k] ∨ (k.val = s.sp.val ∧ ∃ nnn, i = .callAddr nnn)
  fb : t.fb = s.fb ∨ i = .cls ∨ ∃ x y n, i = .drwVxVyNibble x y n

section
variable {i : Instr} {s t : State}

theorem keeps_setPc (s : State) (v : Word) : Keeps s (s.setPc v) := ⟨rfl, rfl, rfl, rfl, rfl⟩

theorem keeps_skipIf (s : State) (c : Bool) : Keeps s (s.skipIf c) := by
  rw [State.skipIf_eq]
  exact keeps_setPc s _

theorem keeps_raiseFatal (s : State) (op : BitVec 17) (c : FatalCode) (a : Word) : Keeps s (s.raiseFatal op c a) :=
  ⟨rfl, rfl, rfl, rfl, rfl⟩

theorem keeps_storeBytes_advance (s : State) (a : Nat) (bs : List Byte) : Keeps s (s.storeBytes a bs).advance :=
  ⟨rfl, rfl, rfl, rfl, rfl⟩

theorem Keeps.footprint (h : Keeps s t) : Footprint i s t where
  V k := .inl (by rw [h.V])
  I := .inl h.I
  sp := .inl h.sp
  stack k := .inl (by rw [h.stack])
  fb := .inl h.fb

/-- A write to one entry of a vector of 16 keeps every other entry. -/
theorem getElem_set_eq_or {α : Type} (v : Vector α 16) (x k : Fin 16) (a : α) : (v.set x a)[k] = v[k] ∨ k = x := by
  by_cases h : k = x
  · exact .inr h
  · exact .inl (Vector.getElem_set_ne x.isLt k.isLt fun e => h (Fin.ext e.symm))

/-- One register is written, and it is one that `i` may write. -/
theorem footprint_of_set {x : Reg} {v : Byte} (V : t.V = s.V.set x v) (hx : WritesV i x) (I : t.I = s.I)
    (sp : t.sp = s.sp) (stack : t.stack = s.stack) (fb : t.fb = s.fb) : Footprint i s t where
  V k := by
    rw [V]
    exact (getElem_set_eq_or s.V x k v).imp_right fun (e : k = x) => e ▸ hx
  I := .inl I
  sp := .inl sp
  stack k := .inl (by rw [stack])
  fb := .inl fb

theorem footprint_setV {x : Reg} (v : Byte) (hx : WritesV i x) : Footprint i s (s.setV x v).advance :=
  footprint_of_set rfl hx rfl rfl rfl rfl

/-- The result goes to `V[x]` and the flag to VF (43_alu.md R130). -/
theorem footprint_setResultAndFlag {x : Reg} (r f : Byte) (hx : WritesV i x) (hF : WritesV i VF) :
    Footprint i s (s.setResultAndFlag x r f).advance where
  V k := by
    rcases getElem_set_eq_or (s.V.set x r) VF k f with hk | rfl
    · exact (getElem_set_eq_or s.V x k r).imp hk.trans fun (e : k = x) => e ▸ hx
    · exact .inr hF
  I := .inl rfl
  sp := .inl rfl
  stack _ := .inl rfl
  fb := .inl rfl

/-! ### The instructions that check something -/

theorem exec_ret_footprint (h : exec .ret s = .next t) : Footprint .ret s t := by
  rcases exec_ret_inv h with ⟨_, rfl⟩ | ⟨_, rfl⟩
  · exact (keeps_raiseFatal s _ _ _).footprint
  · exact ⟨fun _ => .inl rfl, .inl rfl, .inr (.inl rfl), fun _ => .inl rfl, .inl rfl⟩

theorem exec_callAddr_footprint {nnn : Addr12} (h : exec (.callAddr nnn) s = .next t) :
    Footprint (.callAddr nnn) s t := by
  rcases exec_callAddr_inv h with ⟨_, rfl⟩ | ⟨hsp, rfl⟩
  · exact (keeps_raiseFatal s _ _ _).footprint
  · refine ⟨fun _ => .inl rfl, .inl rfl, .inr (.inr ⟨nnn, rfl⟩), fun k => ?_, .inl rfl⟩
    exact (getElem_set_eq_or s.stack ⟨s.sp.val, hsp⟩ k (s.pc + 2)).imp_right fun e => ⟨congrArg Fin.val e, nnn, rfl⟩

theorem exec_skpVx_footprint {x : Reg} (h : exec (.skpVx x) s = .next t) : Footprint (.skpVx x) s t := by
  rcases exec_skpVx_inv h with ⟨_, rfl⟩ | ⟨k, _, rfl⟩
  · exact (keeps_raiseFatal s _ _ _).footprint
  · exact (keeps_skipIf s _).footprint

theorem exec_sknpVx_footprint {x : Reg} (h : exec (.sknpVx x) s = .next t) : Footprint (.sknpVx x) s t := by
  rcases exec_sknpVx_inv h with ⟨_, rfl⟩ | ⟨k, _, rfl⟩
  · exact (keeps_raiseFatal s _ _ _).footprint
  · exact (keeps_skipIf s _).footprint

theorem exec_ldVxK_footprint {x : Reg} (h : exec (.ldVxK x) s = .next t) : Footprint (.ldVxK x) s t := by
  rcases exec_ldVxK_inv h with ⟨_, rfl⟩ | ⟨k, _, _, rfl⟩
  · exact Keeps.footprint ⟨rfl, rfl, rfl, rfl, rfl⟩
  · exact footprint_setV _ rfl

theorem exec_drwVxVyNibble_footprint {x y : Reg} {n : Nibble} (h : exec (.drwVxVyNibble x y n) s = .next t) :
    Footprint (.drwVxVyNibble x y n) s t := by
  rcases exec_drwVxVyNibble_inv h with ⟨_, rfl⟩ | ⟨_, d, _, rfl⟩
  · exact (keeps_raiseFatal s _ _ _).footprint
  · refine ⟨fun k => ?_, .inl rfl, .inl rfl, fun _ => .inl rfl, .inr (.inr ⟨x, y, n, rfl⟩)⟩
    exact getElem_set_eq_or s.V VF k (flagOf d.2)

theorem exec_ldBVx_footprint {x : Reg} (h : exec (.ldBVx x) s = .next t) : Footprint (.ldBVx x) s t := by
  rcases exec_ldBVx_inv h with ⟨_, rfl⟩ | ⟨_, rfl⟩
  · exact (keeps_raiseFatal s _ _ _).footprint
  · exact (keeps_storeBytes_advance s _ _).footprint

theorem exec_ldMemIVx_footprint {x : Reg} (h : exec (.ldMemIVx x) s = .next t) : Footprint (.ldMemIVx x) s t := by
  rcases exec_ldMemIVx_inv h with ⟨_, rfl⟩ | ⟨_, rfl⟩
  · exact (keeps_raiseFatal s _ _ _).footprint
  · exact (keeps_storeBytes_advance s _ _).footprint

/-- A register above `x` lies outside the block FX65 loads. -/
theorem exec_ldVxMemI_footprint {x : Reg} (h : exec (.ldVxMemI x) s = .next t) : Footprint (.ldVxMemI x) s t := by
  rcases exec_ldVxMemI_inv h with ⟨_, rfl⟩ | ⟨_, u, hu, rfl⟩
  · exact (keeps_raiseFatal s _ _ _).footprint
  · refine ⟨fun k => ?_, .inl (by simp [hu]), .inl (by simp [hu]), fun _ => .inl (by simp [hu]), .inl (by simp [hu])⟩
    by_cases hk : k ≤ x
    · exact .inr hk
    · have hkeep : u.getV k = s.getV k := by rw [hu, getV_setVUpTo, if_neg hk]
      exact .inl hkeep

/-! ### Every instruction, every step -/

theorem exec_footprint (h : exec i s = .next t) : Footprint i s t := by
  cases i with
  | cls => cases h; exact ⟨fun _ => .inl rfl, .inl rfl, .inl rfl, fun _ => .inl rfl, .inr (.inl rfl)⟩
  | ret => exact exec_ret_footprint h
  | callAddr nnn => exact exec_callAddr_footprint h
  | seVxByte x nn => cases h; exact (keeps_skipIf s _).footprint
  | sneVxByte x nn => cases h; exact (keeps_skipIf s _).footprint
  | seVxVy x y => cases h; exact (keeps_skipIf s _).footprint
  | sneVxVy x y => cases h; exact (keeps_skipIf s _).footprint
  | skpVx x => exact exec_skpVx_footprint h
  | sknpVx x => exact exec_sknpVx_footprint h
  | ldVxByte x nn => cases h; exact footprint_setV _ rfl
  | addVxByte x nn => cases h; exact footprint_setV _ rfl
  | ldVxVy x y => cases h; exact footprint_setV _ rfl
  | orVxVy x y => cases h; exact footprint_setV _ rfl
  | andVxVy x y => cases h; exact footprint_setV _ rfl
  | xorVxVy x y => cases h; exact footprint_setV _ rfl
  | rndVxByte x nn => cases h; exact footprint_of_set rfl rfl rfl rfl rfl rfl
  | ldVxDT x => cases h; exact footprint_setV _ rfl
  | ldVxK x => exact exec_ldVxK_footprint h
  | addVxVy x y => cases h; exact footprint_setResultAndFlag _ _ (.inl rfl) (.inr rfl)
  | subVxVy x y => cases h; exact footprint_setResultAndFlag _ _ (.inl rfl) (.inr rfl)
  | subnVxVy x y => cases h; exact footprint_setResultAndFlag _ _ (.inl rfl) (.inr rfl)
  | shrVxVy x y => cases h; exact footprint_setResultAndFlag _ _ (.inl rfl) (.inr rfl)
  | shlVxVy x y => cases h; exact footprint_setResultAndFlag _ _ (.inl rfl) (.inr rfl)
  | ldIAddr nnn =>
    cases h; exact ⟨fun _ => .inl rfl, .inr (.inl ⟨nnn, rfl⟩), .inl rfl, fun _ => .inl rfl, .inl rfl⟩
  | addIVx x =>
    cases h; exact ⟨fun _ => .inl rfl, .inr (.inr (.inl ⟨x, rfl⟩)), .inl rfl, fun _ => .inl rfl, .inl rfl⟩
  | ldFVx x =>
    cases h; exact ⟨fun _ => .inl rfl, .inr (.inr (.inr ⟨x, rfl⟩)), .inl rfl, fun _ => .inl rfl, .inl rfl⟩
  | drwVxVyNibble x y n => exact exec_drwVxVyNibble_footprint h
  | ldBVx x => exact exec_ldBVx_footprint h
  | ldMemIVx x => exact exec_ldMemIVx_footprint h
  | ldVxMemI x => exact exec_ldVxMemI_footprint h
  | _ => cases h; exact Keeps.footprint ⟨rfl, rfl, rfl, rfl, rfl⟩

/-- A step that executes no instruction (halted, a fetch fault, an unknown opcode) keeps these parts; any other has the
footprint of the instruction it fetched. -/
theorem step_footprint (h : step s = .next t) :
    Keeps s t ∨ ∃ w i, s.fetch = some w ∧ decode w = .ok i ∧ Footprint i s t := by
  rcases step_cases h with ⟨_, rfl⟩ | ⟨_, _, rfl⟩ | ⟨w, i, _, hf, hd, he⟩ | ⟨w, g, _, _, _, rfl⟩
  · exact .inl ⟨rfl, rfl, rfl, rfl, rfl⟩
  · exact .inl (keeps_raiseFatal s _ _ _)
  · exact .inr ⟨w, i, hf, hd, exec_footprint he⟩
  · exact .inl (keeps_setPc s _)

end

/-- Settles O57: at each constructor `WritesV` is the arm of the statement's table. -/
theorem registersWrittenByEachInstruction : Obligations.RegistersWrittenByEachInstruction := by
  unfold Obligations.RegistersWrittenByEachInstruction
  intro i s t k h hk
  have hw : WritesV i k := ((exec_footprint h).V k).resolve_left hk
  cases i <;> exact hw

/-- Settles O58: by the `I` part of the footprint of every instruction. -/
theorem indexRegisterWriters : Obligations.IndexRegisterWriters := by
  unfold Obligations.IndexRegisterWriters
  intro i s t h hI
  exact (exec_footprint h).I.resolve_left hI

/-- Settles O54: the instruction of a step that changes the framebuffer is one of its two writers. -/
theorem onlyClsAndDrwWriteFramebuffer : Obligations.OnlyClsAndDrwWriteFramebuffer := by
  unfold Obligations.OnlyClsAndDrwWriteFramebuffer
  intro s t h hfb
  rcases step_footprint h with k | ⟨w, i, hf, hd, fp⟩
  · exact absurd k.fb hfb
  · refine ⟨w, hf, ?_⟩
    rcases fp.fb.resolve_left hfb with rfl | ⟨x, y, n, rfl⟩
    · exact .inl hd
    · exact .inr ⟨x, y, n, hd⟩

/-- Settles O56: RET and CALL are the writers of `sp`, and CALL writes the entry at `sp` alone. -/
theorem onlyCallAndRetUseStack : Obligations.OnlyCallAndRetUseStack := by
  unfold Obligations.OnlyCallAndRetUseStack
  intro s t h
  rcases step_footprint h with keep | ⟨w, i, hf, hd, fp⟩
  · exact ⟨fun hsp => absurd keep.sp hsp, fun k hk => absurd (by rw [keep.stack]) hk⟩
  · refine ⟨fun hsp => ⟨w, hf, ?_⟩, fun k hk => ?_⟩
    · rcases fp.sp.resolve_left hsp with rfl | ⟨nnn, rfl⟩
      · exact .inl hd
      · exact .inr ⟨nnn, hd⟩
    · obtain ⟨hsp, nnn, rfl⟩ := (fp.stack k).resolve_left hk
      exact ⟨hsp, w, nnn, hf, hd⟩

end Sys2Proof

/-! # What a step stores to memory (O55)

The two stores of the instruction set are said once, with the bytes they write (`exec_mem_cases`); a block write changes
only what its own addresses read as (`Memory.bounds_of_read_writeBlock_ne`). -/

namespace Sys2Proof

open Machine

section
variable {i : Instr} {s t : State}

/-- An address that reads differently after a block write lies in the block. -/
theorem Machine.Memory.bounds_of_read_writeBlock_ne {m : Memory} {a b : Nat} {bs : List Byte}
    (h : Memory.read (Memory.writeBlock m a bs) b ≠ Memory.read m b) : a ≤ b ∧ b < a + bs.length := by
  by_contra hb
  exact h (Memory.read_writeBlock_outside bs (by omega))

theorem skipIf_mem (s : State) (c : Bool) : (s.skipIf c).mem = s.mem := by
  rw [State.skipIf_eq, State.setPc_mem]

/-- An instruction keeps memory, or it is FX33 or FX55 and stores its block from `I` on (20_memory.md R55, R58). -/
theorem exec_mem_cases (h : exec i s = .next t) :
    t.mem = s.mem ∨
    (∃ x, i = .ldBVx x ∧ t.mem = Memory.writeBlock s.mem s.I.toNat (decimalDigits (s.getV x))) ∨
    (∃ x, i = .ldMemIVx x ∧ t.mem = Memory.writeBlock s.mem s.I.toNat (s.getVUpTo x)) := by
  cases i with
  | ldBVx x =>
    rcases exec_ldBVx_inv h with ⟨_, rfl⟩ | ⟨_, rfl⟩
    · exact .inl rfl
    · exact .inr (.inl ⟨x, rfl, rfl⟩)
  | ldMemIVx x =>
    rcases exec_ldMemIVx_inv h with ⟨_, rfl⟩ | ⟨_, rfl⟩
    · exact .inl rfl
    · exact .inr (.inr ⟨x, rfl, rfl⟩)
  | ldVxMemI x =>
    rcases exec_ldVxMemI_inv h with ⟨_, rfl⟩ | ⟨_, u, hu, rfl⟩
    · exact .inl rfl
    · exact .inl (by simp [hu])
  | drwVxVyNibble x y n =>
    rcases exec_drwVxVyNibble_inv h with ⟨_, rfl⟩ | ⟨_, _, _, rfl⟩
    · exact .inl rfl
    · exact .inl rfl
  | ret =>
    rcases exec_ret_inv h with ⟨_, rfl⟩ | ⟨_, rfl⟩
    · exact .inl rfl
    · exact .inl rfl
  | callAddr nnn =>
    rcases exec_callAddr_inv h with ⟨_, rfl⟩ | ⟨_, rfl⟩
    · exact .inl rfl
    · exact .inl rfl
  | skpVx x =>
    rcases exec_skpVx_inv h with ⟨_, rfl⟩ | ⟨_, _, rfl⟩
    · exact .inl rfl
    · exact .inl (skipIf_mem s _)
  | sknpVx x =>
    rcases exec_sknpVx_inv h with ⟨_, rfl⟩ | ⟨_, _, rfl⟩
    · exact .inl rfl
    · exact .inl (skipIf_mem s _)
  | ldVxK x =>
    rcases exec_ldVxK_inv h with ⟨_, rfl⟩ | ⟨_, _, _, rfl⟩
    · exact .inl rfl
    · exact .inl rfl
  | seVxByte x nn => cases h; exact .inl (skipIf_mem s _)
  | sneVxByte x nn => cases h; exact .inl (skipIf_mem s _)
  | seVxVy x y => cases h; exact .inl (skipIf_mem s _)
  | sneVxVy x y => cases h; exact .inl (skipIf_mem s _)
  | _ => cases h; exact .inl rfl

/-- A step that executes no instruction (halted, a fetch fault, an unknown opcode) keeps memory. -/
theorem exec_of_step_mem_ne (h : step s = .next t) (hm : t.mem ≠ s.mem) :
    ∃ w i, s.fetch = some w ∧ decode w = .ok i ∧ exec i s = .next t := by
  rcases step_cases h with ⟨_, rfl⟩ | ⟨_, _, rfl⟩ | ⟨w, i, _, hf, hd, he⟩ | ⟨_, _, _, _, _, rfl⟩
  · exact absurd rfl hm
  · exact absurd rfl hm
  · exact ⟨w, i, hf, hd, he⟩
  · exact absurd rfl hm

end

/-- Settles O55: the step executed one of the two stores, and the address lies in the block it wrote. -/
theorem onlyStoresWriteMemory : Obligations.OnlyStoresWriteMemory := by
  unfold Obligations.OnlyStoresWriteMemory
  intro s t b h hb
  have hm : t.mem ≠ s.mem := fun e => hb (by rw [e])
  obtain ⟨w, i, hf, hd, he⟩ := exec_of_step_mem_ne h hm
  rcases (exec_mem_cases he).resolve_left hm with ⟨x, rfl, hw⟩ | ⟨x, rfl, hw⟩
  · obtain ⟨hlo, hhi⟩ := Memory.bounds_of_read_writeBlock_ne (hw ▸ hb)
    rw [decimalDigits_length] at hhi
    exact ⟨w, x, hf, .inl ⟨hd, hlo, by omega⟩⟩
  · obtain ⟨hlo, hhi⟩ := Memory.bounds_of_read_writeBlock_ne (hw ▸ hb)
    rw [getVUpTo_length] at hhi
    exact ⟨w, x, hf, .inr ⟨hd, hlo, by omega⟩⟩

end Sys2Proof

/-! # The decoder and the encoder (O8 to O13)

What the decoder can answer is said once, in `decode_spec`: the instruction whose word it was given, or the group of
30_encoding.md R76 that the word lies in. `decode_encode` and `exists_decode_of_match` go the other way, from an
instruction and from a row of spec/opcode_table.json to the decoder's answer. -/

namespace Sys2Proof

/-! ### Fields as masked and shifted bits (30_encoding.md R71) -/

/-- `m` selects `len` bits from bit `start` on, when it shifts down to `len` ones. -/
theorem toNat_extractLsb'_eq_and_shiftRight (w m : Opcode) (start len : Nat) (hm : m.toNat >>> start = 2 ^ len - 1) :
    (w.extractLsb' start len).toNat = ((w &&& m) >>> start).toNat := by
  rw [BitVec.extractLsb'_toNat, BitVec.toNat_ushiftRight, BitVec.toNat_and, Nat.shiftRight_and_distrib, hm,
    Nat.and_two_pow_sub_one_eq_mod]

/-- Settles O8: each field is an extraction of consecutive bits, and each mask has ones exactly there. -/
theorem fieldsAreMaskedAndShiftedBits : Obligations.FieldsAreMaskedAndShiftedBits := by
  unfold Obligations.FieldsAreMaskedAndShiftedBits
  intro w
  exact ⟨toNat_extractLsb'_eq_and_shiftRight w _ 12 4 rfl, toNat_extractLsb'_eq_and_shiftRight w _ 8 4 rfl,
    toNat_extractLsb'_eq_and_shiftRight w _ 4 4 rfl, toNat_extractLsb'_eq_and_shiftRight w _ 0 4 rfl,
    toNat_extractLsb'_eq_and_shiftRight w _ 0 8 rfl, toNat_extractLsb'_eq_and_shiftRight w _ 0 12 rfl⟩

/-! ### Words of a group and format are the format of their fields -/

section
variable {w : Opcode} {t n : Nibble} {nn : Byte}

theorem formatAddr_eq_of_fieldT (ht : fieldT w = t) : formatAddr t (fieldNNN w) = w := by
  rw [← ht, formatAddr_fields]

theorem formatRegByte_eq_of_fieldT (ht : fieldT w = t) : formatRegByte t (fieldX w) (fieldNN w) = w := by
  rw [← ht, formatRegByte_fields]

theorem formatRegReg_eq_of_fieldT (ht : fieldT w = t) : formatRegReg t (fieldX w) (fieldY w) (fieldN w) = w := by
  rw [← ht, formatRegReg_fields]

theorem formatRegByte_eq_of_fields (ht : fieldT w = t) (hnn : fieldNN w = nn) : formatRegByte t (fieldX w) nn = w := by
  rw [← hnn, formatRegByte_eq_of_fieldT ht]

theorem formatRegReg_eq_of_fields (ht : fieldT w = t) (hn : fieldN w = n) :
    formatRegReg t (fieldX w) (fieldY w) n = w := by
  rw [← hn, formatRegReg_eq_of_fieldT ht]

/-! ### SYS (30_encoding.md R75, R77) -/

theorem fieldNNN_eq_iff {a : Addr12} (ht : fieldT w = t) : fieldNNN w = a ↔ w = formatAddr t a :=
  ⟨fun h => by rw [← h, formatAddr_eq_of_fieldT ht], fun h => by rw [h, fieldNNN_formatAddr]⟩

/-- In group 0, SYS is the instruction of every word but those of CLS and RET. -/
theorem wellFormed_sysAddr_fieldNNN_iff (ht : fieldT w = 0x0#4) :
    (Instr.sysAddr (fieldNNN w)).WellFormed ↔ w ≠ 0x00E0#16 ∧ w ≠ 0x00EE#16 := by
  have hcls : fieldNNN w = 0x0E0#12 ↔ w = 0x00E0#16 := fieldNNN_eq_iff ht
  have hret : fieldNNN w = 0x0EE#12 ↔ w = 0x00EE#16 := fieldNNN_eq_iff ht
  simp [Instr.WellFormed, Instr.wf, hcls, hret]

theorem decode_sysAddr (ht : fieldT w = 0x0#4) (hwf : (Instr.sysAddr (fieldNNN w)).WellFormed) :
    decode w = .ok (.sysAddr (fieldNNN w)) := by
  obtain ⟨hcls, hret⟩ := (wellFormed_sysAddr_fieldNNN_iff ht).mp hwf
  rw [decode_T0 ht, decodeGroup0, if_neg hcls, if_neg hret]

end

/-! ### From an instruction to its word and back (30_encoding.md R72) -/

theorem decode_encode {i : Instr} (hi : i.WellFormed) : decode (encode i) = .ok i := by
  cases i with
  | cls => rfl
  | ret => rfl
  | sysAddr nnn => simpa [encode] using decode_sysAddr (fieldT_formatAddr 0x0#4 nnn) (by simpa using hi)
  | jpAddr nnn => simp [encode, decode_T1]
  | callAddr nnn => simp [encode, decode_T2]
  | seVxByte x nn => simp [encode, decode_T3]
  | sneVxByte x nn => simp [encode, decode_T4]
  | seVxVy x y => simp [encode, decode_seVxVy]
  | ldVxByte x nn => simp [encode, decode_T6]
  | addVxByte x nn => simp [encode, decode_T7]
  | ldVxVy x y => simp [encode, decode_ldVxVy]
  | orVxVy x y => simp [encode, decode_orVxVy]
  | andVxVy x y => simp [encode, decode_andVxVy]
  | xorVxVy x y => simp [encode, decode_xorVxVy]
  | addVxVy x y => simp [encode, decode_addVxVy]
  | subVxVy x y => simp [encode, decode_subVxVy]
  | shrVxVy x y => simp [encode, decode_shrVxVy]
  | subnVxVy x y => simp [encode, decode_subnVxVy]
  | shlVxVy x y => simp [encode, decode_shlVxVy]
  | sneVxVy x y => simp [encode, decode_sneVxVy]
  | ldIAddr nnn => simp [encode, decode_TA]
  | jpV0Addr nnn => simp [encode, decode_TB]
  | rndVxByte x nn => simp [encode, decode_TC]
  | drwVxVyNibble x y n => simp [encode, decode_TD]
  | skpVx x => simp [encode, decode_skpVx]
  | sknpVx x => simp [encode, decode_sknpVx]
  | ldVxDT x => simp [encode, decode_ldVxDT]
  | ldVxK x => simp [encode, decode_ldVxK]
  | ldDTVx x => simp [encode, decode_ldDTVx]
  | ldSTVx x => simp [encode, decode_ldSTVx]
  | addIVx x => simp [encode, decode_addIVx]
  | ldFVx x => simp [encode, decode_ldFVx]
  | ldBVx x => simp [encode, decode_ldBVx]
  | ldMemIVx x => simp [encode, decode_ldMemIVx]
  | ldVxMemI x => simp [encode, decode_ldVxMemI]

/-- Settles O9: the fields of a format are the operands put into it, and the decoder reads these fields. -/
theorem decodeReadsBackEncode : Obligations.DecodeReadsBackEncode := by
  unfold Obligations.DecodeReadsBackEncode
  intro i hi
  exact decode_encode hi

/-! ### What the decoder answers -/

/-- The words of each group of unknown opcodes (30_encoding.md R76). -/
def InGroup (w : Opcode) : UnknownOpcode → Prop
  | .group5 => fieldT w = 0x5#4 ∧ fieldN w ≠ 0#4
  | .group8 => fieldT w = 0x8#4 ∧ fieldN w ∈ [0x8#4, 0x9#4, 0xA#4, 0xB#4, 0xC#4, 0xD#4, 0xF#4]
  | .group9 => fieldT w = 0x9#4 ∧ fieldN w ≠ 0#4
  | .groupE => fieldT w = 0xE#4 ∧ fieldNN w ∉ [0x9E#8, 0xA1#8]
  | .groupF =>
    fieldT w = 0xF#4 ∧ fieldNN w ∉ [0x07#8, 0x0A#8, 0x15#8, 0x18#8, 0x1E#8, 0x29#8, 0x33#8, 0x55#8, 0x65#8]

/-- An answer of the decoder that is right for the word `w`. -/
def AnswerFor (w : Opcode) : Except UnknownOpcode Instr → Prop
  | .ok i => encode i = w ∧ i.WellFormed
  | .error g => InGroup w g

section
variable {w : Opcode} {i : Instr} {g : UnknownOpcode}

/-- The low nibbles that select no operation of group 8 are the seven of its unknown opcodes. -/
theorem mem_unused_of_notMem_group8 :
    ∀ n : Nibble, n ∉ [0x0#4, 0x1#4, 0x2#4, 0x3#4, 0x4#4, 0x5#4, 0x6#4, 0x7#4, 0xE#4] →
      n ∈ [0x8#4, 0x9#4, 0xA#4, 0xB#4, 0xC#4, 0xD#4, 0xF#4] := by
  decide

theorem decodeGroup0_spec (ht : fieldT w = 0x0#4) : AnswerFor w (.ok (decodeGroup0 w)) := by
  unfold decodeGroup0
  split
  · next hcls => exact ⟨hcls.symm, rfl⟩
  · next hcls =>
    split
    · next hret => exact ⟨hret.symm, rfl⟩
    · next hret => exact ⟨formatAddr_eq_of_fieldT ht, (wellFormed_sysAddr_fieldNNN_iff ht).mpr ⟨hcls, hret⟩⟩

theorem decodeGroup5_spec (ht : fieldT w = 0x5#4) : AnswerFor w (decodeGroup5 w) := by
  unfold decodeGroup5
  split
  · next hn => exact ⟨formatRegReg_eq_of_fields ht hn, rfl⟩
  · next hn => exact ⟨ht, hn⟩

theorem decodeGroup8_spec (ht : fieldT w = 0x8#4) : AnswerFor w (decodeGroup8 w) := by
  unfold decodeGroup8
  split
  case h_10 => exact ⟨ht, mem_unused_of_notMem_group8 _ (by simp_all)⟩
  all_goals next hn => exact ⟨formatRegReg_eq_of_fields ht hn, rfl⟩

theorem decodeGroup9_spec (ht : fieldT w = 0x9#4) : AnswerFor w (decodeGroup9 w) := by
  unfold decodeGroup9
  split
  · next hn => exact ⟨formatRegReg_eq_of_fields ht hn, rfl⟩
  · next hn => exact ⟨ht, hn⟩

theorem decodeGroupE_spec (ht : fieldT w = 0xE#4) : AnswerFor w (decodeGroupE w) := by
  unfold decodeGroupE
  split
  case h_3 => exact ⟨ht, by simp_all⟩
  all_goals next hnn => exact ⟨formatRegByte_eq_of_fields ht hnn, rfl⟩

theorem decodeGroupF_spec (ht : fieldT w = 0xF#4) : AnswerFor w (decodeGroupF w) := by
  unfold decodeGroupF
  split
  case h_10 => exact ⟨ht, by simp_all⟩
  all_goals next hnn => exact ⟨formatRegByte_eq_of_fields ht hnn, rfl⟩

theorem decode_spec (w : Opcode) : AnswerFor w (decode w) := by
  rcases nibble_cases (fieldT w) with
    ht | ht | ht | ht | ht | ht | ht | ht | ht | ht | ht | ht | ht | ht | ht | ht
  · rw [decode_T0 ht]; exact decodeGroup0_spec ht
  · rw [decode_T1 ht]; exact ⟨formatAddr_eq_of_fieldT ht, rfl⟩
  · rw [decode_T2 ht]; exact ⟨formatAddr_eq_of_fieldT ht, rfl⟩
  · rw [decode_T3 ht]; exact ⟨formatRegByte_eq_of_fieldT ht, rfl⟩
  · rw [decode_T4 ht]; exact ⟨formatRegByte_eq_of_fieldT ht, rfl⟩
  · rw [decode_T5 ht]; exact decodeGroup5_spec ht
  · rw [decode_T6 ht]; exact ⟨formatRegByte_eq_of_fieldT ht, rfl⟩
  · rw [decode_T7 ht]; exact ⟨formatRegByte_eq_of_fieldT ht, rfl⟩
  · rw [decode_T8 ht]; exact decodeGroup8_spec ht
  · rw [decode_T9 ht]; exact decodeGroup9_spec ht
  · rw [decode_TA ht]; exact ⟨formatAddr_eq_of_fieldT ht, rfl⟩
  · rw [decode_TB ht]; exact ⟨formatAddr_eq_of_fieldT ht, rfl⟩
  · rw [decode_TC ht]; exact ⟨formatRegByte_eq_of_fieldT ht, rfl⟩
  · rw [decode_TD ht]; exact ⟨formatRegReg_eq_of_fieldT ht, rfl⟩
  · rw [decode_TE ht]; exact decodeGroupE_spec ht
  · rw [decode_TF ht]; exact decodeGroupF_spec ht

theorem encode_and_wellFormed_of_decode (h : decode w = .ok i) : encode i = w ∧ i.WellFormed := by
  have spec := decode_spec w
  rwa [h] at spec

theorem inGroup_of_decode (h : decode w = .error g) : InGroup w g := by
  have spec := decode_spec w
  rwa [h] at spec

theorem decode_eq_error_of_inGroup (h : InGroup w g) : decode w = .error g := by
  cases g with
  | group5 =>
    obtain ⟨ht, hn⟩ := h
    rw [decode_T5 ht, decodeGroup5, if_neg hn]
  | group8 =>
    obtain ⟨ht, hn⟩ := h
    rw [decode_T8 ht]
    unfold decodeGroup8
    split
    case h_10 => rfl
    all_goals next hused => exact absurd hn (by rw [hused]; decide)
  | group9 =>
    obtain ⟨ht, hn⟩ := h
    rw [decode_T9 ht, decodeGroup9, if_neg hn]
  | groupE =>
    obtain ⟨ht, hnn⟩ := h
    rw [decode_TE ht]
    unfold decodeGroupE
    split
    case h_3 => rfl
    all_goals next hused => exact absurd hnn (by rw [hused]; decide)
  | groupF =>
    obtain ⟨ht, hnn⟩ := h
    rw [decode_TF ht]
    unfold decodeGroupF
    split
    case h_10 => rfl
    all_goals next hused => exact absurd hnn (by rw [hused]; decide)

theorem decode_eq_error_iff : decode w = .error g ↔ InGroup w g := ⟨inGroup_of_decode, decode_eq_error_of_inGroup⟩

theorem exists_decode_eq_sysAddr_iff :
    (∃ nnn, decode w = .ok (.sysAddr nnn)) ↔ fieldT w = 0x0#4 ∧ w ≠ 0x00E0#16 ∧ w ≠ 0x00EE#16 := by
  constructor
  · rintro ⟨nnn, h⟩
    obtain ⟨rfl, hwf⟩ := encode_and_wellFormed_of_decode h
    have ht : fieldT (encode (.sysAddr nnn)) = 0x0#4 := fieldT_formatAddr _ _
    exact ⟨ht, (wellFormed_sysAddr_fieldNNN_iff ht).mp (by simpa [encode] using hwf)⟩
  · rintro ⟨ht, hne⟩
    exact ⟨_, decode_sysAddr ht ((wellFormed_sysAddr_fieldNNN_iff ht).mpr hne)⟩

end

/-- Settles O10: an `ok` answer that is right for the word is an instruction of that word. -/
theorem encodeRestoresDecodedWord : Obligations.EncodeRestoresDecodedWord := by
  unfold Obligations.EncodeRestoresDecodedWord
  intro w i h
  exact encode_and_wellFormed_of_decode h

/-- Settles O12: the statement's clauses are `InGroup` at each group, and the words that SYS decodes from. -/
theorem unknownOpcodesByGroup : Obligations.UnknownOpcodesByGroup := by
  unfold Obligations.UnknownOpcodesByGroup
  intro w
  exact ⟨decode_eq_error_iff, decode_eq_error_iff, decode_eq_error_iff, decode_eq_error_iff, decode_eq_error_iff,
    exists_decode_eq_sysAddr_iff⟩

/-- Settles O13: the first four words by the decoder's row for their fields, the last by its group. -/
theorem decodeOfWrittenOutWords : Obligations.DecodeOfWrittenOutWords :=
  ⟨decode_T6 rfl, decode_TD rfl, decode_ldMemIVx rfl rfl, decode_T2 rfl,
    decode_eq_error_of_inGroup ⟨rfl, by decide⟩⟩

/-! ### The rows of the table (30_encoding.md R75) -/

section
open Laws.EncodingRow

theorem encode_and_mask (i : Instr) : encode i &&& (rowOf i).1 = (rowOf i).2 :=
  i.casesOn (motive := Statement) cls ret sysAddr jpAddr callAddr seVxByte sneVxByte seVxVy ldVxByte addVxByte
    ldVxVy orVxVy andVxVy xorVxVy addVxVy subVxVy shrVxVy subnVxVy shlVxVy sneVxVy ldIAddr jpV0Addr rndVxByte
    drwVxVyNibble skpVx sknpVx ldVxDT ldVxK ldDTVx ldSTVx addIVx ldFVx ldBVx ldMemIVx ldVxMemI

end

/-- A word that a row matches decodes to an instruction of that row, unless it is the row of SYS, where CLS and RET
come first. -/
theorem exists_decode_of_match {w : Opcode} {j : Instr} (h : w &&& (rowOf j).1 = (rowOf j).2) :
    ∃ i, decode w = .ok i ∧ (rowOf j = rowOf i ∨ rowOf j = (0xF000#16, 0x0000#16)) := by
  cases j with
  | cls => exact ⟨.cls, by rw [eq_of_full_mask h]; rfl, .inl rfl⟩
  | ret => exact ⟨.ret, by rw [eq_of_full_mask h]; rfl, .inl rfl⟩
  | sysAddr _ => exact ⟨_, decode_T0 (fieldT_of_mask 0x0#4 rfl h), .inr rfl⟩
  | jpAddr _ => exact ⟨_, decode_T1 (fieldT_of_mask 0x1#4 rfl h), .inl rfl⟩
  | callAddr _ => exact ⟨_, decode_T2 (fieldT_of_mask 0x2#4 rfl h), .inl rfl⟩
  | seVxByte _ _ => exact ⟨_, decode_T3 (fieldT_of_mask 0x3#4 rfl h), .inl rfl⟩
  | sneVxByte _ _ => exact ⟨_, decode_T4 (fieldT_of_mask 0x4#4 rfl h), .inl rfl⟩
  | seVxVy _ _ => exact ⟨_, (fieldN_of_mask 0x5#4 0x0#4 rfl h).elim decode_seVxVy, .inl rfl⟩
  | ldVxByte _ _ => exact ⟨_, decode_T6 (fieldT_of_mask 0x6#4 rfl h), .inl rfl⟩
  | addVxByte _ _ => exact ⟨_, decode_T7 (fieldT_of_mask 0x7#4 rfl h), .inl rfl⟩
  | ldVxVy _ _ => exact ⟨_, (fieldN_of_mask 0x8#4 0x0#4 rfl h).elim decode_ldVxVy, .inl rfl⟩
  | orVxVy _ _ => exact ⟨_, (fieldN_of_mask 0x8#4 0x1#4 rfl h).elim decode_orVxVy, .inl rfl⟩
  | andVxVy _ _ => exact ⟨_, (fieldN_of_mask 0x8#4 0x2#4 rfl h).elim decode_andVxVy, .inl rfl⟩
  | xorVxVy _ _ => exact ⟨_, (fieldN_of_mask 0x8#4 0x3#4 rfl h).elim decode_xorVxVy, .inl rfl⟩
  | addVxVy _ _ => exact ⟨_, (fieldN_of_mask 0x8#4 0x4#4 rfl h).elim decode_addVxVy, .inl rfl⟩
  | subVxVy _ _ => exact ⟨_, (fieldN_of_mask 0x8#4 0x5#4 rfl h).elim decode_subVxVy, .inl rfl⟩
  | shrVxVy _ _ => exact ⟨_, (fieldN_of_mask 0x8#4 0x6#4 rfl h).elim decode_shrVxVy, .inl rfl⟩
  | subnVxVy _ _ => exact ⟨_, (fieldN_of_mask 0x8#4 0x7#4 rfl h).elim decode_subnVxVy, .inl rfl⟩
  | shlVxVy _ _ => exact ⟨_, (fieldN_of_mask 0x8#4 0xE#4 rfl h).elim decode_shlVxVy, .inl rfl⟩
  | sneVxVy _ _ => exact ⟨_, (fieldN_of_mask 0x9#4 0x0#4 rfl h).elim decode_sneVxVy, .inl rfl⟩
  | ldIAddr _ => exact ⟨_, decode_TA (fieldT_of_mask 0xA#4 rfl h), .inl rfl⟩
  | jpV0Addr _ => exact ⟨_, decode_TB (fieldT_of_mask 0xB#4 rfl h), .inl rfl⟩
  | rndVxByte _ _ => exact ⟨_, decode_TC (fieldT_of_mask 0xC#4 rfl h), .inl rfl⟩
  | drwVxVyNibble _ _ _ => exact ⟨_, decode_TD (fieldT_of_mask 0xD#4 rfl h), .inl rfl⟩
  | skpVx _ => exact ⟨_, (fieldNN_of_mask 0xE#4 0x9E#8 rfl h).elim decode_skpVx, .inl rfl⟩
  | sknpVx _ => exact ⟨_, (fieldNN_of_mask 0xE#4 0xA1#8 rfl h).elim decode_sknpVx, .inl rfl⟩
  | ldVxDT _ => exact ⟨_, (fieldNN_of_mask 0xF#4 0x07#8 rfl h).elim decode_ldVxDT, .inl rfl⟩
  | ldVxK _ => exact ⟨_, (fieldNN_of_mask 0xF#4 0x0A#8 rfl h).elim decode_ldVxK, .inl rfl⟩
  | ldDTVx _ => exact ⟨_, (fieldNN_of_mask 0xF#4 0x15#8 rfl h).elim decode_ldDTVx, .inl rfl⟩
  | ldSTVx _ => exact ⟨_, (fieldNN_of_mask 0xF#4 0x18#8 rfl h).elim decode_ldSTVx, .inl rfl⟩
  | addIVx _ => exact ⟨_, (fieldNN_of_mask 0xF#4 0x1E#8 rfl h).elim decode_addIVx, .inl rfl⟩
  | ldFVx _ => exact ⟨_, (fieldNN_of_mask 0xF#4 0x29#8 rfl h).elim decode_ldFVx, .inl rfl⟩
  | ldBVx _ => exact ⟨_, (fieldNN_of_mask 0xF#4 0x33#8 rfl h).elim decode_ldBVx, .inl rfl⟩
  | ldMemIVx _ => exact ⟨_, (fieldNN_of_mask 0xF#4 0x55#8 rfl h).elim decode_ldMemIVx, .inl rfl⟩
  | ldVxMemI _ => exact ⟨_, (fieldNN_of_mask 0xF#4 0x65#8 rfl h).elim decode_ldVxMemI, .inl rfl⟩

section
variable {w : Opcode} {i : Instr}

theorem and_mask_of_decode (h : decode w = .ok i) : w &&& (rowOf i).1 = (rowOf i).2 := by
  obtain ⟨rfl, _⟩ := encode_and_wellFormed_of_decode h
  exact encode_and_mask i

/-- The decoder gives a matching word one instruction, so all rows but SYS's that match it are that one's. -/
theorem row_eq_or_of_decode_of_match {j : Instr} (hd : decode w = .ok i) (hm : w &&& (rowOf j).1 = (rowOf j).2) :
    rowOf j = rowOf i ∨ rowOf j = (0xF000#16, 0x0000#16) := by
  obtain ⟨k, hk, hrow⟩ := exists_decode_of_match hm
  obtain rfl : i = k := Except.ok.inj (hd.symm.trans hk)
  exact hrow

theorem exists_decode_eq_error_iff :
    (∃ g, decode w = .error g) ↔ ∀ j : Instr, w &&& (rowOf j).1 ≠ (rowOf j).2 := by
  constructor
  · rintro ⟨g, hg⟩ j hm
    obtain ⟨k, hk, _⟩ := exists_decode_of_match hm
    rw [hg] at hk
    cases hk
  · intro hno
    cases hd : decode w with
    | error g => exact ⟨g, rfl⟩
    | ok i => exact absurd (and_mask_of_decode hd) (hno i)

end

/-- Settles O11: the decoder's word lies in the row of its instruction, and a row that matches decodes. -/
theorem decodeTakesFirstMatchingRow : Obligations.DecodeTakesFirstMatchingRow := by
  unfold Obligations.DecodeTakesFirstMatchingRow
  refine ⟨rfl, rfl, fun w => ⟨fun i hi => ⟨and_mask_of_decode hi, fun j hj => ?_⟩, exists_decode_eq_error_iff⟩⟩
  exact row_eq_or_of_decode_of_match hi hj

end Sys2Proof

/-! # The step: its result, its timers, its `pc` and its draw (O14 to O16, O19, O20, O53, O59, O60)

The step is taken apart by `step_cases`, an instruction by its inversion lemma. Which result a step answers is said
once, in `resultOf_eq_iff`; that a draw passes through every instruction but CXNN, in `exec_withDraw`. -/

namespace Sys2Proof

open Machine

section
variable {i : Instr} {s t : State} {w : Opcode} {g : UnknownOpcode}

/-! ### Every step answers (40_cycle.md R95) -/

theorem exec_answers (i : Instr) (s : State) : ∃ t, exec i s = .next t := by
  cases i with
  | ret => simp only [exec, execRet]; split <;> exact ⟨_, rfl⟩
  | callAddr nnn => simp only [exec, execCallAddr]; split <;> exact ⟨_, rfl⟩
  | skpVx x => simp only [exec, execSkpVx]; split <;> exact ⟨_, rfl⟩
  | sknpVx x => simp only [exec, execSknpVx]; split <;> exact ⟨_, rfl⟩
  | ldVxK x => simp only [exec, execLdVxK]; split <;> exact ⟨_, rfl⟩
  | drwVxVyNibble x y n => simp only [exec, execDrwVxVyNibble]; split <;> exact ⟨_, rfl⟩
  | ldBVx x => simp only [exec, execLdBVx]; split <;> exact ⟨_, rfl⟩
  | ldMemIVx x => simp only [exec, execLdMemIVx]; split <;> exact ⟨_, rfl⟩
  | ldVxMemI x => simp only [exec, execLdVxMemI]; split <;> exact ⟨_, rfl⟩
  | _ => exact ⟨_, rfl⟩

theorem step_answers (s : State) : ∃ t, step s = .next t := by
  cases hh : s.halted with
  | true => exact ⟨s, step_eq_halted hh⟩
  | false =>
    cases hf : s.fetch with
    | none => exact ⟨_, step_eq_raiseFetch hh hf⟩
    | some w =>
      cases hd : decode w with
      | ok i => exact (step_eq_exec hh hf hd).symm ▸ exec_answers i s
      | error g => exact ⟨_, step_eq_skip hh hf hd⟩

/-! ### The fetch (40_cycle.md R91) -/

/-- Inside memory the fetch gives the two bytes at `pc`, high byte first. -/
theorem fetch_eq_some_ofNat (h : s.pc.toNat ≤ 0xFFE) :
    s.fetch = some (BitVec.ofNat 16
      ((Memory.read s.mem s.pc.toNat).toNat * 256 + (Memory.read s.mem (s.pc.toNat + 1)).toNat)) := by
  rw [fetch_eq_some h, concatBytes_eq_ofNat]

/-! ### The result of a step (40_cycle.md R95) -/

theorem resultOf_of_halted (h : t.halted = true) : resultOf s t = .fatal t.fault := by
  simp [resultOf, h]

theorem resultOf_of_decode_ok (ht : t.halted = false) (hf : s.fetch = some w) (hd : decode w = .ok i) :
    resultOf s t = reportOf i w s := by
  simp [resultOf, ht, hf, hd]

theorem resultOf_of_decode_error (ht : t.halted = false) (hf : s.fetch = some w) (hd : decode w = .error g) :
    resultOf s t = .unknown w s.pc := by
  simp [resultOf, ht, hf, hd]

/-- The words a step reports as unknown: those of no row, and those of SYS (30_encoding.md R77, 40_cycle.md R94). -/
def ReportedUnknown (w : Opcode) : Prop := (∃ g, decode w = .error g) ∨ ∃ nnn, decode w = .ok (.sysAddr nnn)

/-- FX0A finds no key pressed. -/
def Waits (s : State) : Prop :=
  s.halted = false ∧ (∃ w x, s.fetch = some w ∧ decode w = .ok (.ldVxK x)) ∧ ∀ k : Reg, s.key[k] = false

/-- `i` ran to completion: SYS never does, and FX0A only with a key pressed. -/
def Completes (i : Instr) (s : State) : Prop :=
  (∀ nnn, i ≠ .sysAddr nnn) ∧ ((∃ x, i = .ldVxK x) → ∃ k : Reg, s.key[k] = true)

/-- When the step from `s` to `t` answers each result: the rows of 40_cycle.md R95. -/
def ResultCondition (s t : State) : StepResult → Prop
  | .fatal r => t.halted = true ∧ r = t.fault
  | .waiting => Waits s
  | .unknown w p => s.halted = false ∧ s.fetch = some w ∧ p = s.pc ∧ ReportedUnknown w
  | .ok => t.halted = false ∧ ∃ w i, s.fetch = some w ∧ decode w = .ok i ∧ exec i s = .next t ∧ Completes i s

theorem leastKey_isSome_iff : s.leastKey.isSome = true ↔ ∃ k : Reg, s.key[k] = true := by
  rw [← Option.ne_none_iff_isSome, ne_eq, leastKey_eq_none]
  simp

/-- An instruction that raises nothing reports that it completed, unless it is SYS or FX0A without a key. -/
theorem reportOf_eq_ok (h : Completes i s) : reportOf i w s = .ok := by
  obtain ⟨hsys, hkey⟩ := h
  cases i with
  | sysAddr nnn => exact absurd rfl (hsys nnn)
  | ldVxK x => exact if_pos (leastKey_isSome_iff.mpr (hkey ⟨x, rfl⟩))
  | _ => rfl

theorem step_eq_of_waits (h : Waits s) : step s = .next s ∧ resultOf s s = .waiting := by
  obtain ⟨hh, ⟨w, x, hf, hd⟩, hk⟩ := h
  have hnone : s.leastKey = none := leastKey_eq_none.mpr hk
  rw [step_eq_exec hh hf hd, resultOf_of_decode_ok hh hf hd]
  simp [exec, execLdVxK, reportOf, hnone]

theorem step_eq_of_reportedUnknown (hh : s.halted = false) (hf : s.fetch = some w) (h : ReportedUnknown w) :
    step s = .next { s with pc := s.pc + 2 } ∧ resultOf s { s with pc := s.pc + 2 } = .unknown w s.pc := by
  rcases h with ⟨g, hd⟩ | ⟨nnn, hd⟩
  · exact ⟨step_eq_skip hh hf hd, resultOf_of_decode_error hh hf hd⟩
  · exact ⟨step_eq_exec hh hf hd, resultOf_of_decode_ok hh hf hd⟩

theorem eq_of_step {u : State} (h : step s = .next t) (hu : step s = .next u) : t = u :=
  Host.Outcome.next.inj (h.symm.trans hu)

/-- A raised condition writes `halted` and the record alone (60_exceptions.md R173, R174). -/
theorem exec_eq_of_halted (hh : s.halted = false) (h : exec i s = .next t) (ht : t.halted = true) :
    t = { s with halted := true, fault := t.fault } := by
  rcases exec_cases h with e | ⟨c, a, _, rfl⟩
  · exact absurd (e.halted.symm.trans ht) (by simp [hh])
  · rfl

theorem step_eq_of_halted (h : step s = .next t) (ht : t.halted = true) :
    t = { s with halted := true, fault := t.fault } := by
  rcases step_cases h with ⟨hh, rfl⟩ | ⟨_, _, rfl⟩ | ⟨w, i, hh, _, _, he⟩ | ⟨w, g, hh, _, _, rfl⟩
  · rw [← hh]
  · rfl
  · exact exec_eq_of_halted hh he ht
  · exact absurd (hh.symm.trans ht) (by decide)

theorem fetched_of_step (h : step s = .next t) (ht : t.halted = false) :
    s.halted = false ∧ ∃ w, s.fetch = some w ∧ (ReportedUnknown w ∨ ∃ i, decode w = .ok i ∧ exec i s = .next t) := by
  rcases step_cases h with ⟨hh, rfl⟩ | ⟨_, _, rfl⟩ | ⟨w, i, hh, hf, hd, he⟩ | ⟨w, g, hh, hf, hd, _⟩
  · exact absurd (hh.symm.trans ht) (by decide)
  · cases ht
  · exact ⟨hh, w, hf, .inr ⟨i, hd, he⟩⟩
  · exact ⟨hh, w, hf, .inl (.inl ⟨g, hd⟩)⟩

/-- The result of a step meets its condition. -/
theorem resultCondition_of_step (h : step s = .next t) : ResultCondition s t (resultOf s t) := by
  cases ht : t.halted with
  | true =>
    rw [resultOf_of_halted ht]
    exact ⟨ht, rfl⟩
  | false =>
    obtain ⟨hh, w, hf, hw⟩ := fetched_of_step h ht
    by_cases hu : ReportedUnknown w
    · obtain ⟨hstep, hres⟩ := step_eq_of_reportedUnknown hh hf hu
      rw [eq_of_step h hstep, hres]
      exact ⟨hh, hf, rfl, hu⟩
    · obtain ⟨i, hd, he⟩ := hw.resolve_left hu
      have hsys : ∀ nnn, i ≠ .sysAddr nnn := fun nnn e => hu (.inr ⟨nnn, e ▸ hd⟩)
      by_cases hkey : (∃ x, i = .ldVxK x) → ∃ k : Reg, s.key[k] = true
      · rw [resultOf_of_decode_ok ht hf hd, reportOf_eq_ok ⟨hsys, hkey⟩]
        exact ⟨ht, w, i, hf, hd, he, hsys, hkey⟩
      · push Not at hkey
        obtain ⟨⟨x, rfl⟩, hk⟩ := hkey
        have hwait : Waits s := ⟨hh, ⟨w, x, hf, hd⟩, by simpa using hk⟩
        obtain ⟨hstep, hres⟩ := step_eq_of_waits hwait
        rw [eq_of_step h hstep, hres]
        exact hwait

/-- A step answers a result exactly when the result's condition holds. -/
theorem resultOf_eq_iff (h : step s = .next t) {r : StepResult} : resultOf s t = r ↔ ResultCondition s t r := by
  refine ⟨fun e => e ▸ resultCondition_of_step h, fun hr => ?_⟩
  cases r with
  | fatal r =>
    obtain ⟨ht, rfl⟩ := hr
    exact resultOf_of_halted ht
  | waiting =>
    obtain ⟨hstep, hres⟩ := step_eq_of_waits hr
    rw [eq_of_step h hstep, hres]
  | unknown w p =>
    obtain ⟨hh, hf, rfl, hu⟩ := hr
    obtain ⟨hstep, hres⟩ := step_eq_of_reportedUnknown hh hf hu
    rw [eq_of_step h hstep, hres]
  | ok =>
    obtain ⟨ht, w, i, hf, hd, _, hc⟩ := hr
    rw [resultOf_of_decode_ok ht hf hd, reportOf_eq_ok hc]

/-! ### The timers (40_cycle.md R97) -/

/-- `t` has the timers of `s`. -/
structure KeepsTimers (s t : State) : Prop where
  delay : t.delay = s.delay
  sound : t.sound = s.sound

theorem keepsTimers_skipIf (s : State) (c : Bool) : KeepsTimers s (s.skipIf c) := by
  rw [State.skipIf_eq]
  exact ⟨rfl, rfl⟩

theorem exec_timers_cases (h : exec i s = .next t) :
    KeepsTimers s t ∨ (∃ x, i = .ldDTVx x ∧ t.delay = s.V[x] ∧ t.sound = s.sound) ∨
    ∃ x, i = .ldSTVx x ∧ t.delay = s.delay ∧ t.sound = s.V[x] := by
  cases i with
  | ldDTVx x => cases h; exact .inr (.inl ⟨x, rfl, rfl, rfl⟩)
  | ldSTVx x => cases h; exact .inr (.inr ⟨x, rfl, rfl, rfl⟩)
  | seVxByte x nn => cases h; exact .inl (keepsTimers_skipIf s _)
  | sneVxByte x nn => cases h; exact .inl (keepsTimers_skipIf s _)
  | seVxVy x y => cases h; exact .inl (keepsTimers_skipIf s _)
  | sneVxVy x y => cases h; exact .inl (keepsTimers_skipIf s _)
  | skpVx x =>
    rcases exec_skpVx_inv h with ⟨_, rfl⟩ | ⟨_, _, rfl⟩
    · exact .inl ⟨rfl, rfl⟩
    · exact .inl (keepsTimers_skipIf s _)
  | sknpVx x =>
    rcases exec_sknpVx_inv h with ⟨_, rfl⟩ | ⟨_, _, rfl⟩
    · exact .inl ⟨rfl, rfl⟩
    · exact .inl (keepsTimers_skipIf s _)
  | ret => rcases exec_ret_inv h with ⟨_, rfl⟩ | ⟨_, rfl⟩ <;> exact .inl ⟨rfl, rfl⟩
  | callAddr nnn => rcases exec_callAddr_inv h with ⟨_, rfl⟩ | ⟨_, rfl⟩ <;> exact .inl ⟨rfl, rfl⟩
  | ldVxK x => rcases exec_ldVxK_inv h with ⟨_, rfl⟩ | ⟨_, _, _, rfl⟩ <;> exact .inl ⟨rfl, rfl⟩
  | drwVxVyNibble x y n =>
    rcases exec_drwVxVyNibble_inv h with ⟨_, rfl⟩ | ⟨_, _, _, rfl⟩ <;> exact .inl ⟨rfl, rfl⟩
  | ldBVx x => rcases exec_ldBVx_inv h with ⟨_, rfl⟩ | ⟨_, rfl⟩ <;> exact .inl ⟨rfl, rfl⟩
  | ldMemIVx x => rcases exec_ldMemIVx_inv h with ⟨_, rfl⟩ | ⟨_, rfl⟩ <;> exact .inl ⟨rfl, rfl⟩
  | ldVxMemI x =>
    rcases exec_ldVxMemI_inv h with ⟨_, rfl⟩ | ⟨_, u, hu, rfl⟩
    · exact .inl ⟨rfl, rfl⟩
    · exact .inl ⟨by simp [hu], by simp [hu]⟩
  | _ => cases h; exact .inl ⟨rfl, rfl⟩

theorem exec_key (h : exec i s = .next t) : t.key = s.key := by
  rcases exec_cases h with e | ⟨c, a, _, rfl⟩
  · exact e.key
  · rfl

/-! ### The program counter (40_cycle.md R96) -/

theorem skipIf_pc_of_iff {c : Bool} {p : Prop} [Decidable p] (hc : c = true ↔ p) :
    (s.skipIf c).pc = if p then s.pc + 4 else s.pc + 2 := by
  simp [hc]

theorem exec_ret_pc (h : exec .ret s = .next t) (ht : t.halted = false) (k : Fin 16) (hk : s.sp.val = k.val + 1) :
    t.pc = s.stack[k] := by
  rcases exec_ret_inv h with ⟨_, rfl⟩ | ⟨_, rfl⟩
  · cases ht
  · simp [hk]

theorem exec_callAddr_pc {nnn : Addr12} (h : exec (.callAddr nnn) s = .next t) (ht : t.halted = false) :
    t.pc.toNat = nnn.toNat ∧ ∀ k : Fin 16, k.val = s.sp.val → t.stack[k] = s.pc + 2 := by
  rcases exec_callAddr_inv h with ⟨_, rfl⟩ | ⟨_, rfl⟩
  · cases ht
  · exact ⟨zextAddr_toNat nnn, fun k hk => by simp [hk]⟩

theorem exec_skpVx_pc {x : Reg} (h : exec (.skpVx x) s = .next t) (ht : t.halted = false) (k : Fin 16)
    (hk : s.V[x].toNat = k.val) : t.pc = if s.key[k] = true then s.pc + 4 else s.pc + 2 := by
  rcases exec_skpVx_inv h with ⟨_, rfl⟩ | ⟨j, hj, rfl⟩
  · cases ht
  · obtain rfl : j = k := Fin.ext (hj.symm.trans hk)
    exact skipIf_pc_of_iff Iff.rfl

theorem exec_sknpVx_pc {x : Reg} (h : exec (.sknpVx x) s = .next t) (ht : t.halted = false) (k : Fin 16)
    (hk : s.V[x].toNat = k.val) : t.pc = if s.key[k] = false then s.pc + 4 else s.pc + 2 := by
  rcases exec_sknpVx_inv h with ⟨_, rfl⟩ | ⟨j, hj, rfl⟩
  · cases ht
  · obtain rfl : j = k := Fin.ext (hj.symm.trans hk)
    exact skipIf_pc_of_iff (by simp)

theorem exec_ldVxK_pc {x : Reg} (h : exec (.ldVxK x) s = .next t) :
    ((∃ k : Fin 16, s.key[k] = true) → t.pc = s.pc + 2) ∧ ((∀ k : Fin 16, s.key[k] = false) → t.pc = s.pc) := by
  rcases exec_ldVxK_inv h with ⟨hno, rfl⟩ | ⟨k, _, hk, rfl⟩
  · exact ⟨fun ⟨k, hk⟩ => absurd hk (by simp [hno k]), fun _ => rfl⟩
  · exact ⟨fun _ => rfl, fun hno => absurd hk (by simp [hno k])⟩

theorem exec_drwVxVyNibble_pc {x y : Reg} {n : Nibble} (h : exec (.drwVxVyNibble x y n) s = .next t)
    (ht : t.halted = false) : t.pc = s.pc + 2 := by
  rcases exec_drwVxVyNibble_inv h with ⟨_, rfl⟩ | ⟨_, _, _, rfl⟩
  · cases ht
  · rfl

theorem exec_ldBVx_pc {x : Reg} (h : exec (.ldBVx x) s = .next t) (ht : t.halted = false) : t.pc = s.pc + 2 := by
  rcases exec_ldBVx_inv h with ⟨_, rfl⟩ | ⟨_, rfl⟩
  · cases ht
  · rfl

theorem exec_ldMemIVx_pc {x : Reg} (h : exec (.ldMemIVx x) s = .next t) (ht : t.halted = false) :
    t.pc = s.pc + 2 := by
  rcases exec_ldMemIVx_inv h with ⟨_, rfl⟩ | ⟨_, rfl⟩
  · cases ht
  · rfl

theorem exec_ldVxMemI_pc {x : Reg} (h : exec (.ldVxMemI x) s = .next t) (ht : t.halted = false) :
    t.pc = s.pc + 2 := by
  rcases exec_ldVxMemI_inv h with ⟨_, rfl⟩ | ⟨_, u, hu, rfl⟩
  · cases ht
  · simp [hu]

/-! ### The draw (40_cycle.md R98) -/

section
variable (s : State) (d : Option Byte)

theorem skipIf_withDraw (c : Bool) : (s.withDraw d).skipIf c = (s.skipIf c).withDraw d := by
  rw [State.skipIf_eq, State.skipIf_eq]
  rfl

theorem getV_withDraw (x : Reg) : (s.withDraw d).getV x = s.getV x := rfl

theorem leastKey_withDraw : (s.withDraw d).leastKey = s.leastKey := rfl

theorem push_withDraw (v : Word) : (s.withDraw d).push v = (s.push v).map (·.withDraw d) := by
  by_cases h : s.sp.val < 16
  · rw [push_eq_some v h, push_eq_some v (by exact h)]
    rfl
  · simp [State.push, h]

theorem pop_withDraw : (s.withDraw d).pop = s.pop.map fun p => (p.1, p.2.withDraw d) := by
  by_cases h : s.sp.val = 0
  · simp [State.pop, h]
  · rw [pop_eq_some h, pop_eq_some (by exact h)]
    rfl

/-- A check that does not read the draw, between two effects that pass it through. -/
theorem ite_next_withDraw {c : Bool} {a b a' b' : State}
    (h : (if c then .next a else .next b : Host.Outcome State Fault Refusal) = .next t) (ha : a' = a.withDraw d)
    (hb : b' = b.withDraw d) :
    (if c then .next a' else .next b' : Host.Outcome State Fault Refusal) = .next (t.withDraw d) := by
  subst ha hb
  cases c
  · cases h; rfl
  · cases h; rfl

end

/-- No instruction but CXNN reads the draw or writes it. -/
theorem exec_withDraw (hi : ∀ x nn, i ≠ .rndVxByte x nn) (d : Option Byte) (h : exec i s = .next t) :
    exec i (s.withDraw d) = .next (t.withDraw d) := by
  cases i with
  | rndVxByte x nn => exact absurd rfl (hi x nn)
  | seVxByte x nn => cases h; exact congrArg Host.Outcome.next (skipIf_withDraw s d _)
  | sneVxByte x nn => cases h; exact congrArg Host.Outcome.next (skipIf_withDraw s d _)
  | seVxVy x y => cases h; exact congrArg Host.Outcome.next (skipIf_withDraw s d _)
  | sneVxVy x y => cases h; exact congrArg Host.Outcome.next (skipIf_withDraw s d _)
  | skpVx x =>
    simp only [exec, execSkpVx, getV_withDraw] at h ⊢
    cases hk : keyIndex (s.getV x) with
    | some k => rw [hk] at h; cases h; exact congrArg Host.Outcome.next (skipIf_withDraw s d _)
    | none => rw [hk] at h; cases h; rfl
  | sknpVx x =>
    simp only [exec, execSknpVx, getV_withDraw] at h ⊢
    cases hk : keyIndex (s.getV x) with
    | some k => rw [hk] at h; cases h; exact congrArg Host.Outcome.next (skipIf_withDraw s d _)
    | none => rw [hk] at h; cases h; rfl
  | ret =>
    simp only [exec, execRet, pop_withDraw] at h ⊢
    cases hp : s.pop with
    | some p => rw [hp] at h; cases h; rfl
    | none => rw [hp] at h; cases h; rfl
  | callAddr nnn =>
    simp only [exec, execCallAddr] at h ⊢
    rw [show (s.withDraw d).push (returnAddress (s.withDraw d)) = _ from push_withDraw s d (returnAddress s)]
    cases hp : s.push (returnAddress s) with
    | some u => rw [hp] at h; cases h; rfl
    | none => rw [hp] at h; cases h; rfl
  | ldVxK x =>
    simp only [exec, execLdVxK, leastKey_withDraw] at h ⊢
    cases hk : s.leastKey with
    | some k => rw [hk] at h; cases h; rfl
    | none => rw [hk] at h; cases h; rfl
  | drwVxVyNibble x y n => exact ite_next_withDraw d h rfl rfl
  | ldBVx x => exact ite_next_withDraw d h rfl rfl
  | ldMemIVx x => exact ite_next_withDraw d h rfl rfl
  | ldVxMemI x => exact ite_next_withDraw d h rfl rfl
  | _ => cases h; rfl

theorem step_withDraw (hi : ∀ w x nn, s.fetch = some w → decode w ≠ .ok (.rndVxByte x nn)) (d : Option Byte)
    (h : step s = .next t) : step (s.withDraw d) = .next (t.withDraw d) := by
  rcases step_cases h with ⟨hh, rfl⟩ | ⟨hh, hf, rfl⟩ | ⟨w, i, hh, hf, hd, he⟩ | ⟨w, g, hh, hf, hd, rfl⟩
  · exact step_eq_halted hh
  · exact step_eq_raiseFetch hh hf
  · have hne : ∀ x nn, i ≠ .rndVxByte x nn := fun x nn e => hi w x nn hf (e ▸ hd)
    exact (step_eq_exec (s := s.withDraw d) hh hf hd).trans (exec_withDraw hne d he)
  · exact step_eq_skip hh hf hd

/-- The host's `step(r)` answers what the step with the draw `r` gives, without the draw. -/
theorem perform_step {font : Vector Byte 80} {r : Byte} (h : step (s.withDraw (some r)) = .next t) :
    perform font (.step r) (some s) = .next (t.withDraw none, .stepped (resultOf s t)) := by
  simp only [perform, performOn, stepWith, h]
  rfl

end

/-- Settles O20: each clause is `resultOf_eq_iff` at one result, with what the step of that result gives. -/
theorem stepResultIsOneOfFour : Obligations.StepResultIsOneOfFour := by
  unfold Obligations.StepResultIsOneOfFour
  intro s t h
  refine ⟨⟨fun e => ((resultOf_eq_iff h).mp e).1, resultOf_of_halted⟩, resultOf_eq_iff h, fun e => ?_,
    fun w p => resultOf_eq_iff h, fun w p e => ?_, fun r e => ?_, resultOf_eq_iff h⟩
  · exact eq_of_step h (step_eq_of_waits ((resultOf_eq_iff h).mp e)).1
  · obtain ⟨hh, hf, _, hu⟩ := (resultOf_eq_iff h).mp e
    exact eq_of_step h (step_eq_of_reportedUnknown hh hf hu).1
  · obtain ⟨ht, hr⟩ := (resultOf_eq_iff h).mp e
    exact ⟨hr, step_eq_of_halted h ht⟩

/-- Settles O53: the only cases of a step in which a timer differs are FX15 and FX18, and none writes the keypad. -/
theorem stepNeverTicksOrWritesKeypad : Obligations.StepNeverTicksOrWritesKeypad := by
  unfold Obligations.StepNeverTicksOrWritesKeypad
  intro s t h
  rcases step_cases h with ⟨_, rfl⟩ | ⟨_, _, rfl⟩ | ⟨w, i, _, hf, hd, he⟩ | ⟨_, _, _, _, _, rfl⟩
  · exact ⟨.inl rfl, .inl rfl, rfl⟩
  · exact ⟨.inl rfl, .inl rfl, rfl⟩
  · rcases exec_timers_cases he with k | ⟨x, rfl, hdelay, hsound⟩ | ⟨x, rfl, hdelay, hsound⟩
    · exact ⟨.inl k.delay, .inl k.sound, exec_key he⟩
    · exact ⟨.inr ⟨w, x, hf, hd, hdelay⟩, .inl hsound, exec_key he⟩
    · exact ⟨.inl hdelay, .inr ⟨w, x, hf, hd, hsound⟩, exec_key he⟩
  · exact ⟨.inl rfl, .inl rfl, rfl⟩

/-- Settles O59: an unknown opcode is skipped, a raised condition keeps `pc`, and the rest is one case per row. -/
theorem pcChangeOfEachInstruction : Obligations.PcChangeOfEachInstruction := by
  unfold Obligations.PcChangeOfEachInstruction
  refine ⟨fun s w hh hf ⟨g, hd⟩ => step_eq_skip hh hf hd, fun i s t hh h => ⟨fun ht => ?_, fun ht => ?_⟩⟩
  · rw [exec_eq_of_halted hh h ht]
  · cases i with
    | ret => exact exec_ret_pc h ht
    | callAddr nnn => exact exec_callAddr_pc h ht
    | jpAddr nnn => cases h; exact zextAddr_toNat nnn
    | jpV0Addr nnn => cases h; exact computedTarget_toNat s nnn
    | seVxByte x nn => cases h; exact skipIf_pc_of_iff beq_iff_eq
    | sneVxByte x nn => cases h; exact skipIf_pc_of_iff bne_iff_ne
    | seVxVy x y => cases h; exact skipIf_pc_of_iff beq_iff_eq
    | sneVxVy x y => cases h; exact skipIf_pc_of_iff bne_iff_ne
    | skpVx x => exact exec_skpVx_pc h ht
    | sknpVx x => exact exec_sknpVx_pc h ht
    | ldVxK x => exact exec_ldVxK_pc h
    | drwVxVyNibble x y n => exact exec_drwVxVyNibble_pc h ht
    | ldBVx x => exact exec_ldBVx_pc h ht
    | ldMemIVx x => exact exec_ldMemIVx_pc h ht
    | ldVxMemI x => exact exec_ldVxMemI_pc h ht
    | _ => cases h; rfl

/-- Settles O60: the draw only passes through a step that does not run CXNN, and `step(r)` takes it out again. -/
theorem drawMattersOnlyToRnd : Obligations.DrawMattersOnlyToRnd := by
  unfold Obligations.DrawMattersOnlyToRnd
  refine fun font s => ⟨fun r t h => ⟨t.withDraw none, perform_step h, rfl⟩, fun hi r r' => ?_⟩
  obtain ⟨t, h⟩ := step_answers s
  rw [perform_step (step_withDraw hi (some r) h), perform_step (step_withDraw hi (some r') h)]
  rfl

/-- Settles O14: inside memory the fetch gives the word of the two bytes, and the step runs what it decodes to. -/
theorem stepRunsDecodedInstruction : Obligations.StepRunsDecodedInstruction := by
  unfold Obligations.StepRunsDecodedInstruction
  intro s i hh hpc hd
  exact step_eq_exec hh (fetch_eq_some_ofNat hpc) hd

/-- Settles O15: by the fetch inside memory, and the step of a core whose fetch faults. -/
theorem fetchChecksRangeThenReadsBigEndian : Obligations.FetchChecksRangeThenReadsBigEndian := by
  unfold Obligations.FetchChecksRangeThenReadsBigEndian
  intro s
  exact ⟨fetch_eq_some_ofNat, fun hpc hh => step_eq_raiseFetch hh (fetch_eq_none.mpr hpc)⟩

/-- Settles O16: SYS is executed as an unknown opcode, and the step of either only moves `pc`. -/
theorem unknownOpcodeIsReportedAndSkipped : Obligations.UnknownOpcodeIsReportedAndSkipped := by
  unfold Obligations.UnknownOpcodeIsReportedAndSkipped
  exact ⟨fun _ _ => rfl, fun s w hh hf hu => step_eq_of_reportedUnknown hh hf hu⟩

/-- Settles O19: every branch of every instruction, and of the step, ends in a next state. -/
theorem stepAndExecAlwaysAnswer : Obligations.StepAndExecAlwaysAnswer := ⟨step_answers, exec_answers⟩

end Sys2Proof

/-! # The display (O27, O28, O29)

A DRW inside memory toggles the pixels of one list, the pixels under the sprite's set bits, and VF tells whether one of
them was set (`Drawn`). The clauses of the statements are this, with the list read as rows and columns. -/

namespace Sys2Proof

open Machine

section
variable {s t : State} {m m' : Memory} {base x0 y0 n : Nat} {px : Fin 64} {py : Fin 32}

/-! ### The pixels of a sprite by row and column -/

theorem mem_spritePixels_iff : (px, py) ∈ spritePixels m base x0 y0 n ↔
    ∃ row col : Nat, row < n ∧ col < 8 ∧ px.val = (x0 + col) % 64 ∧ py.val = (y0 + row) % 32 ∧
      (m.read (base + row)).getLsbD (7 - col) = true := by
  rw [mem_spritePixels]
  constructor
  · rintro ⟨row, hr, col, hc, hb, rfl, rfl⟩
    exact ⟨row, col, hr, hc, rfl, rfl, hb⟩
  · rintro ⟨row, col, hr, hc, hx, hy, hb⟩
    exact ⟨row, hr, col, hc, hb, Fin.ext hx.symm, Fin.ext hy.symm⟩

/-- The pixel of a row and column is one of the sprite's pixels exactly when its bit is set: no other row and column
address it (41_display.md R104). -/
theorem mem_spritePixels_iff_bit {row col : Nat} (hn : n ≤ 32) (hr : row < n) (hc : col < 8)
    (hx : px.val = (x0 + col) % 64) (hy : py.val = (y0 + row) % 32) :
    (px, py) ∈ spritePixels m base x0 y0 n ↔ (m.read (base + row)).getLsbD (7 - col) = true := by
  rw [mem_spritePixels_iff]
  constructor
  · rintro ⟨row', col', hr', hc', hx', hy', hb⟩
    obtain rfl : col' = col := by omega
    obtain rfl : row' = row := by omega
    exact hb
  · exact fun hb => ⟨row, col, hr, hc, hx, hy, hb⟩

theorem exists_mem_spritePixels_iff (fb : Framebuffer) (b : Bool) :
    (∃ p ∈ spritePixels m base x0 y0 n, pixel fb p.1 p.2 = b) ↔
      ∃ (row col : Nat) (px : Fin 64) (py : Fin 32), row < n ∧ col < 8 ∧ px.val = (x0 + col) % 64 ∧
        py.val = (y0 + row) % 32 ∧ (m.read (base + row)).getLsbD (7 - col) = true ∧ pixel fb px py = b := by
  constructor
  · rintro ⟨⟨px, py⟩, hp, hb⟩
    obtain ⟨row, col, hr, hc, hx, hy, hbit⟩ := mem_spritePixels_iff.mp hp
    exact ⟨row, col, px, py, hr, hc, hx, hy, hbit, hb⟩
  · rintro ⟨row, col, px, py, hr, hc, hx, hy, hbit, hb⟩
    exact ⟨(px, py), mem_spritePixels_iff.mpr ⟨row, col, hr, hc, hx, hy, hbit⟩, hb⟩

/-- The pixels of a sprite depend on memory by the sprite's bytes alone. -/
theorem spritePixels_congr (h : ∀ row < n, m'.read (base + row) = m.read (base + row)) :
    spritePixels m' base x0 y0 n = spritePixels m base x0 y0 n :=
  List.flatMap_congr fun row hr => by rw [h row (List.mem_range.mp hr)]

/-! ### What a DRW inside memory answers -/

theorem flagOf_eq_one_iff (c : Bool) : flagOf c = 1 ↔ c = true := by cases c <;> decide

theorem flagOf_eq_zero_or_one (c : Bool) : flagOf c = 0 ∨ flagOf c = 1 := by cases c <;> decide

/-- `t` is `s` after the pixels `ps` were toggled, with the collision in VF (41_display.md R101, R102). -/
structure Drawn (s : State) (ps : List (Fin 64 × Fin 32)) (t : State) : Prop where
  pixel_eq : ∀ px py, pixel t.fb px py = (pixel s.fb px py ^^ decide ((px, py) ∈ ps))
  flag_zero_or_one : t.V[VF] = 0 ∨ t.V[VF] = 1
  flag_iff : t.V[VF] = 1 ↔ ∃ p ∈ ps, pixel s.fb p.1 p.2 = true
  frame : t = { s with V := s.V.set VF t.V[VF], fb := t.fb, pc := s.pc + 2 }

/-- The sprite of `DXYN` in a state: `n` rows from `I` on, drawn at `(V[x], V[y])`. -/
def drwPixels (x y : Reg) (n : Nibble) (s : State) : List (Fin 64 × Fin 32) :=
  spritePixels s.mem s.I.toNat s.V[x].toNat s.V[y].toNat n.toNat

theorem nibble_le_32 (n : Nibble) : n.toNat ≤ 32 := by omega

theorem drawn_drawSprite (x y : Reg) (n : Nibble) {d : Drawing}
    (hd : d = drawSprite s.mem s.I.toNat (s.getV x).toNat (s.getV y).toNat n.toNat s.fb) :
    Drawn s (drwPixels x y n s) ((s.setFb d.1).setV VF (flagOf d.2)).advance := by
  have hV : ((s.setFb d.1).setV VF (flagOf d.2)).advance.V[VF] = flagOf d.2 := by simp
  constructor
  case pixel_eq => rw [hd]; exact drawSprite_pixel s.fb (nibble_le_32 n)
  case flag_zero_or_one => rw [hV]; exact flagOf_eq_zero_or_one d.2
  case flag_iff => rw [hV, flagOf_eq_one_iff, hd]; exact drawSprite_collision s.fb (nibble_le_32 n)
  case frame => rw [hV]; rfl

theorem exec_drwVxVyNibble_drawn {x y : Reg} {n : Nibble} (h : n.toNat = 0 ∨ s.I.toNat + n.toNat - 1 ≤ 0xFFF) :
    ∃ t, exec (.drwVxVyNibble x y n) s = .next t ∧ Drawn s (drwPixels x y n s) t := by
  obtain ⟨t, ht⟩ := exec_answers (.drwVxVyNibble x y n) s
  refine ⟨t, ht, ?_⟩
  rcases exec_drwVxVyNibble_inv ht with ⟨hout, _⟩ | ⟨_, d, hd, rfl⟩
  · omega
  · exact drawn_drawSprite x y n hd

theorem exec_drwVxVyNibble_raises {x y : Reg} {n : Nibble} (h0 : n.toNat ≠ 0)
    (h : 0xFFF < s.I.toNat + n.toNat - 1) :
    exec (.drwVxVyNibble x y n) s = .next (s.raiseAddress (.drwVxVyNibble x y n) s.I.toNat) := by
  obtain ⟨t, ht⟩ := exec_answers (.drwVxVyNibble x y n) s
  rcases exec_drwVxVyNibble_inv ht with ⟨_, rfl⟩ | ⟨hin, _⟩
  · exact ht
  · omega

/-! ### Drawing twice (41_display.md R105) -/

variable {ps : List (Fin 64 × Fin 32)} {s' u : State}

/-- Toggling the same pixels again gives the first framebuffer back. -/
theorem Drawn.fb_of_drawn (hst : Drawn s ps t) (hfb : s'.fb = t.fb) (hu : Drawn s' ps u) : u.fb = s.fb := by
  refine framebuffer_ext fun px py => ?_
  rw [hu.pixel_eq, hfb, hst.pixel_eq]
  simp

/-- A pixel of the sprite is set after the first draw exactly when it was clear before. -/
theorem Drawn.flag_iff_of_drawn (hst : Drawn s ps t) (hfb : s'.fb = t.fb) (hu : Drawn s' ps u) :
    u.V[VF] = 1 ↔ ∃ p ∈ ps, pixel s.fb p.1 p.2 = false := by
  rw [hu.flag_iff, hfb]
  refine exists_congr fun p => and_congr_right fun hp => ?_
  rw [hst.pixel_eq]
  simp [hp]

end

/-- Settles O28: inside memory by `Drawn` with the sprite's pixels read as rows and columns, outside by the raise. -/
theorem drwDrawsSpriteByXor : Obligations.DrwDrawsSpriteByXor := by
  unfold Obligations.DrwDrawsSpriteByXor
  refine ⟨fun w h => decode_TD (fieldT_of_mask 0xD#4 rfl h), fun x y n s => ⟨fun h => ?_, fun h0 h => ?_⟩⟩
  · obtain ⟨t, ht, hst⟩ := exec_drwVxVyNibble_drawn (x := x) (y := y) h
    have hflag := hst.flag_iff.trans (exists_mem_spritePixels_iff s.fb true)
    refine ⟨t, ht, fun row col px py hr hc hx hy => ?_, fun px py hout => ?_, hflag.mpr, fun hno => ?_, hst.frame⟩
    · rw [hst.pixel_eq, drwPixels]
      simp only [mem_spritePixels_iff_bit (nibble_le_32 n) hr hc hx hy, Bool.decide_eq_true]
    · have hnot : (px, py) ∉ drwPixels x y n s := by
        intro hp
        obtain ⟨row, col, hr, hc, hx, hy, _⟩ := mem_spritePixels_iff.mp hp
        exact hout row col hr hc ⟨hx, hy⟩
      rw [hst.pixel_eq, decide_eq_false hnot, Bool.xor_false]
    · exact hst.flag_zero_or_one.resolve_right (mt hflag.mp hno)
  · exact exec_drwVxVyNibble_raises h0 h

/-- Settles O29: both draws toggle the same pixels, since the second reads the same place, rows and bytes. -/
theorem doubleDrawRestoresFramebuffer : Obligations.DoubleDrawRestoresFramebuffer := by
  unfold Obligations.DoubleDrawRestoresFramebuffer
  intro x y x' y' n s t s' h ht hfb hI hx hy hbytes
  obtain ⟨t', ht', hst⟩ := exec_drwVxVyNibble_drawn (x := x) (y := y) h
  obtain rfl : t' = t := Host.Outcome.next.inj (ht'.symm.trans ht)
  obtain ⟨u, hu, hsu⟩ := exec_drwVxVyNibble_drawn (s := s') (x := x') (y := y') (by rwa [hI])
  have hps : drwPixels x' y' n s' = drwPixels x y n s := by
    rw [drwPixels, hI, hx, hy, spritePixels_congr hbytes, drwPixels]
  rw [hps] at hsu
  exact ⟨u, hu, hst.fb_of_drawn hfb hsu,
    (hst.flag_iff_of_drawn hfb hsu).trans (exists_mem_spritePixels_iff s.fb false), hsu.flag_zero_or_one⟩

/-- Settles O27: 0x00E0 is the only word of the row, and CLS writes the clear framebuffer and `pc` alone. -/
theorem clsClearsFramebuffer : Obligations.ClsClearsFramebuffer := by
  unfold Obligations.ClsClearsFramebuffer
  refine ⟨fun w h => ?_, fun s => ⟨_, rfl, pixel_clear, rfl⟩⟩
  rw [eq_of_full_mask h]
  decide

end Sys2Proof

/-! # Control flow (O30 to O36)

A RET or CALL either raises or works on the entry of the stack at one index, which the statements name (`k`); a skip is
a write of `pc` alone, by a condition. The statements join these with the decoder's rows. -/

namespace Sys2Proof

open Machine

section
variable {s : State}

/-! ### RET and CALL (42_flow.md R110, R112) -/

theorem exec_ret_pops (k : Fin 16) (hk : s.sp.val = k.val + 1) :
    exec .ret s = .next { s with pc := s.stack[k], sp := k.castSucc } := by
  obtain ⟨t, ht⟩ := exec_answers .ret s
  rcases exec_ret_inv ht with ⟨h0, _⟩ | ⟨_, rfl⟩
  · omega
  · simp only [ht, hk, Nat.add_sub_cancel]; rfl

theorem exec_ret_underflow (h : s.sp = 0) : exec .ret s = .next (s.raiseIn .ret .stackUnderflow 0) := by
  obtain ⟨t, ht⟩ := exec_answers .ret s
  rcases exec_ret_inv ht with ⟨_, rfl⟩ | ⟨hne, _⟩
  · exact ht
  · exact absurd (congrArg Fin.val h) hne

theorem exec_callAddr_pushes (nnn : Addr12) (k : Fin 16) (hk : s.sp = k.castSucc) :
    exec (.callAddr nnn) s =
      .next { s with stack := s.stack.set k (s.pc + 2), sp := k.succ, pc := BitVec.ofNat 16 nnn.toNat } := by
  obtain ⟨t, ht⟩ := exec_answers (.callAddr nnn) s
  rcases exec_callAddr_inv ht with ⟨h16, _⟩ | ⟨_, rfl⟩
  · exact absurd (hk.symm.trans h16) k.castSucc_lt_last.ne
  · simp only [ht, hk, zextAddr_eq_ofNat]; rfl

theorem exec_callAddr_overflow (nnn : Addr12) (h : s.sp = 16) :
    exec (.callAddr nnn) s = .next (s.raiseIn (.callAddr nnn) .stackOverflow 0) := by
  obtain ⟨t, ht⟩ := exec_answers (.callAddr nnn) s
  rcases exec_callAddr_inv ht with ⟨_, rfl⟩ | ⟨hlt, _⟩
  · exact ht
  · exact absurd (congrArg Fin.val h) hlt.ne

/-! ### The skips (42_flow.md R113 to R116) -/

/-- A skip by a condition writes `pc` and nothing else. -/
theorem skipIf_of_iff {c : Bool} {p : Prop} [Decidable p] (hc : c = true ↔ p) :
    s.skipIf c = { s with pc := if p then s.pc + 4 else s.pc + 2 } := by
  simp [hc, State.setPc]

end

/-- Settles O33: the CALL leaves `pc + 2` in the entry that the RET pops, and each moves `sp` by one. -/
theorem callThenReturnRoundTrip : Obligations.CallThenReturnRoundTrip := by
  unfold Obligations.CallThenReturnRoundTrip
  intro nnn s t s' hsp ht hsp' hstack
  obtain ⟨k, hk⟩ : ∃ k : Fin 16, s.sp = k.castSucc := ⟨⟨s.sp.val, hsp⟩, rfl⟩
  obtain rfl := Host.Outcome.next.inj (ht.symm.trans (exec_callAddr_pushes nnn k hk))
  have hentry : s'.stack[k] = s.pc + 2 := by
    rw [hstack k (congrArg Fin.val hk.symm)]
    simp
  exact ⟨_, exec_ret_pops k (congrArg Fin.val hsp'), hentry, hk.symm⟩

/-- Settles O30: 0x00EE is the only word of the row, and RET pops or raises by the depth of the stack. -/
theorem retPopsReturnAddress : Obligations.RetPopsReturnAddress := by
  unfold Obligations.RetPopsReturnAddress
  refine ⟨fun w h => ?_, fun s => ⟨exec_ret_pops, exec_ret_underflow⟩⟩
  rw [eq_of_full_mask h]
  decide

/-- Settles O31: JP writes `pc` alone, with the zero-extended NNN. -/
theorem jpSetsPc : Obligations.JpSetsPc := by
  unfold Obligations.JpSetsPc
  refine ⟨fun w h => decode_T1 (fieldT_of_mask 0x1#4 rfl h), fun nnn s => ?_⟩
  rw [← zextAddr_eq_ofNat]
  rfl

/-- Settles O32: CALL pushes or raises by the depth of the stack. -/
theorem callPushesReturnAddress : Obligations.CallPushesReturnAddress := by
  unfold Obligations.CallPushesReturnAddress
  exact ⟨fun w h => decode_T2 (fieldT_of_mask 0x2#4 rfl h),
    fun nnn s => ⟨exec_callAddr_pushes nnn, exec_callAddr_overflow nnn⟩⟩

/-- Settles O34: both are skips, by the comparison of `V[X]` with NN. -/
theorem skipsOnByteComparison : Obligations.SkipsOnByteComparison := by
  unfold Obligations.SkipsOnByteComparison
  refine ⟨fun w h => decode_T3 (fieldT_of_mask 0x3#4 rfl h), fun w h => decode_T4 (fieldT_of_mask 0x4#4 rfl h),
    fun x nn s => ⟨?_, ?_⟩⟩
  · exact congrArg Host.Outcome.next (skipIf_of_iff beq_iff_eq)
  · exact congrArg Host.Outcome.next (skipIf_of_iff bne_iff_ne)

/-- Settles O35: both are skips, by the comparison of `V[X]` with `V[Y]`. -/
theorem skipsOnRegisterComparison : Obligations.SkipsOnRegisterComparison := by
  unfold Obligations.SkipsOnRegisterComparison
  refine ⟨fun w h => (fieldN_of_mask 0x5#4 0x0#4 rfl h).elim decode_seVxVy,
    fun w h => (fieldN_of_mask 0x9#4 0x0#4 rfl h).elim decode_sneVxVy, fun x y s => ⟨?_, ?_⟩⟩
  · exact congrArg Host.Outcome.next (skipIf_of_iff beq_iff_eq)
  · exact congrArg Host.Outcome.next (skipIf_of_iff bne_iff_ne)

/-- Settles O36: the sum of a 12-bit and an 8-bit value does not wrap in 16 bits (`computedTarget_toNat`). -/
theorem computedJumpAddsV0 : Obligations.ComputedJumpAddsV0 := by
  unfold Obligations.ComputedJumpAddsV0
  refine ⟨fun w h => decode_TB (fieldT_of_mask 0xB#4 rfl h), fun nnn s => ?_⟩
  have hsum : (computedTarget s nnn).toNat = nnn.toNat + s.V[(0 : Reg)].toNat := computedTarget_toNat s nnn
  have hbound : (computedTarget s nnn).toNat ≤ 0x10FE := by omega
  exact ⟨s.setPc (computedTarget s nnn), rfl, hsum, hbound, rfl⟩

end Sys2Proof

/-! # Registers and arithmetic (O37 to O44)

Each of these instructions is one write of `V[X]`, or a result and then a flag, and the advance of `pc`. The model
computes on bit vectors and the statements on natural numbers: the facts about bytes join the two, and the rest holds by
unfolding the updates of the state. -/

namespace Sys2Proof

open Machine

section
variable {s t : State} {i : Instr} {x : Reg} {r f : Byte}

/-! ### Byte arithmetic as arithmetic modulo 256 -/

theorem byte_add_eq_ofNat (a b : Byte) : a + b = BitVec.ofNat 8 ((a.toNat + b.toNat) % 256) :=
  BitVec.eq_of_toNat_eq (by simp)

theorem byte_sub_eq_ofNat (a b : Byte) : a - b = BitVec.ofNat 8 ((a.toNat + 256 - b.toNat) % 256) :=
  BitVec.eq_of_toNat_eq (by rw [BitVec.toNat_sub, BitVec.toNat_ofNat]; omega)

theorem byte_shiftRight_one_eq_ofNat (a : Byte) : a >>> 1 = BitVec.ofNat 8 (a.toNat / 2) :=
  BitVec.eq_of_toNat_eq (by rw [BitVec.toNat_ushiftRight, BitVec.toNat_ofNat, Nat.shiftRight_eq_div_pow]; omega)

theorem byte_shiftLeft_one_eq_ofNat (a : Byte) : a <<< 1 = BitVec.ofNat 8 (a.toNat * 2 % 256) :=
  BitVec.eq_of_toNat_eq (by rw [BitVec.toNat_shiftLeft, BitVec.toNat_ofNat, Nat.shiftLeft_eq]; omega)

/-! ### The flags as conditions on numbers (10_state.md R23) -/

theorem flagOf_decide (p : Prop) [Decidable p] : flagOf (decide p) = if p then 1 else 0 := by simp [flagOf]

theorem carryFlag_eq (a b : Byte) : carryFlag a b = if a.toNat + b.toNat > 255 then 1 else 0 := flagOf_decide _

theorem notBorrowFlag_eq (a b : Byte) : notBorrowFlag a b = if a.toNat ≥ b.toNat then 1 else 0 := flagOf_decide _

/-- Bit `k` of a byte as a flag is the number `a / 2 ^ k % 2`. -/
theorem flagOf_getLsbD (a : Byte) (k : Nat) : flagOf (a.getLsbD k) = BitVec.ofNat 8 (a.toNat / 2 ^ k % 2) := by
  rw [BitVec.getLsbD, Nat.testBit_eq_decide_div_mod_eq]
  rcases Nat.mod_two_eq_zero_or_one (a.toNat / 2 ^ k) with h | h <;> rw [h] <;> rfl

theorem shiftedOutRight_eq (a : Byte) : shiftedOutRight a = BitVec.ofNat 8 (a.toNat % 2) :=
  (flagOf_getLsbD a 0).trans (congrArg (BitVec.ofNat 8) (by omega))

theorem shiftedOutLeft_eq (a : Byte) : shiftedOutLeft a = BitVec.ofNat 8 (a.toNat / 128) :=
  (flagOf_getLsbD a 7).trans (congrArg (BitVec.ofNat 8) (by omega))

/-! ### A flag writer (43_alu.md R130) -/

/-- The flag is written last, so no `X` loses it. -/
theorem flag_of_exec (h : exec i s = .next (s.setResultAndFlag x r f).advance) (ht : exec i s = .next t) :
    t.V[VF] = f := by
  obtain rfl := Host.Outcome.next.inj (h.symm.trans ht)
  exact getV_setV_same _ VF f

/-- A result that is not in VF outlasts the flag. -/
theorem result_of_exec (hx : x ≠ VF) (h : exec i s = .next (s.setResultAndFlag x r f).advance)
    (ht : exec i s = .next t) : t.V[x] = r := by
  obtain rfl := Host.Outcome.next.inj (h.symm.trans ht)
  exact (getV_setV_other _ f hx.symm).trans (getV_setV_same s x r)

/-! ### CXNN (43_alu.md R142) -/

/-- RND writes the masked draw and changes nothing else but the two fields of the draw. -/
theorem exec_rndVxByte_writes (x : Reg) (nn : Byte) (s : State) : ∃ t, exec (.rndVxByte x nn) s = .next t ∧
    t = { s with V := s.V.set x (s.random &&& nn), pc := s.pc + 2, draw := t.draw, drawCount := t.drawCount } :=
  ⟨((s.setV x (s.random &&& nn)).consumeDraw).advance, rfl, rfl⟩

end

/-- Settles O43: each of the five is a result and then a flag of the old operands, whatever `X` and `Y` are. -/
theorem flagWrittenLastSurvivesInVF : Obligations.FlagWrittenLastSurvivesInVF := by
  unfold Obligations.FlagWrittenLastSurvivesInVF
  intro x y s t
  exact ⟨fun h => (flag_of_exec rfl h).trans (carryFlag_eq _ _),
    fun h => (flag_of_exec rfl h).trans (notBorrowFlag_eq _ _),
    fun h => (flag_of_exec rfl h).trans (notBorrowFlag_eq _ _),
    fun h => (flag_of_exec rfl h).trans (shiftedOutRight_eq _),
    fun h => (flag_of_exec rfl h).trans (shiftedOutLeft_eq _),
    fun hx h => result_of_exec hx rfl h, fun hx h => result_of_exec hx rfl h, fun hx h => result_of_exec hx rfl h⟩

/-- Settles O37: LD writes NN to `V[X]` and advances `pc`. -/
theorem loadImmediate : Obligations.LoadImmediate := by
  unfold Obligations.LoadImmediate
  exact ⟨fun w h => decode_T6 (fieldT_of_mask 0x6#4 rfl h), fun x nn s => rfl⟩

/-- Settles O38: the sum of two bytes is the sum modulo 256. -/
theorem addImmediateWithoutFlag : Obligations.AddImmediateWithoutFlag := by
  unfold Obligations.AddImmediateWithoutFlag
  refine ⟨fun w h => decode_T7 (fieldT_of_mask 0x7#4 rfl h), fun x nn s => ?_⟩
  rw [← byte_add_eq_ofNat]
  rfl

/-- Settles O39: each of the four writes `V[X]` and advances `pc`. -/
theorem copyAndLogicWithoutFlag : Obligations.CopyAndLogicWithoutFlag := by
  unfold Obligations.CopyAndLogicWithoutFlag
  exact ⟨fun w h => (fieldN_of_mask 0x8#4 0x0#4 rfl h).elim decode_ldVxVy,
    fun w h => (fieldN_of_mask 0x8#4 0x1#4 rfl h).elim decode_orVxVy,
    fun w h => (fieldN_of_mask 0x8#4 0x2#4 rfl h).elim decode_andVxVy,
    fun w h => (fieldN_of_mask 0x8#4 0x3#4 rfl h).elim decode_xorVxVy, fun x y s => ⟨rfl, rfl, rfl, rfl⟩⟩

/-- Settles O40: the sum modulo 256, then the carry of the exact sum. -/
theorem addRegistersWithCarry : Obligations.AddRegistersWithCarry := by
  unfold Obligations.AddRegistersWithCarry
  refine ⟨fun w h => (fieldN_of_mask 0x8#4 0x4#4 rfl h).elim decode_addVxVy, fun x y s => ?_⟩
  rw [← byte_add_eq_ofNat, ← carryFlag_eq]
  rfl

/-- Settles O41: the difference modulo 256, then the not-borrow, with the operands in the two orders. -/
theorem subtractRegistersWithNotBorrow : Obligations.SubtractRegistersWithNotBorrow := by
  unfold Obligations.SubtractRegistersWithNotBorrow
  refine ⟨fun w h => (fieldN_of_mask 0x8#4 0x5#4 rfl h).elim decode_subVxVy,
    fun w h => (fieldN_of_mask 0x8#4 0x7#4 rfl h).elim decode_subnVxVy, fun x y s => ⟨?_, ?_⟩⟩
  · rw [← byte_sub_eq_ofNat, ← notBorrowFlag_eq]
    rfl
  · rw [← byte_sub_eq_ofNat, ← notBorrowFlag_eq]
    rfl

/-- Settles O42: half or double of `V[X]`, then its old bit 0 or 7; `Y` is not read. -/
theorem shiftsWithBitShiftedOut : Obligations.ShiftsWithBitShiftedOut := by
  unfold Obligations.ShiftsWithBitShiftedOut
  refine ⟨fun w h => (fieldN_of_mask 0x8#4 0x6#4 rfl h).elim decode_shrVxVy,
    fun w h => (fieldN_of_mask 0x8#4 0xE#4 rfl h).elim decode_shlVxVy, fun x y s => ⟨?_, ?_⟩⟩
  · rw [← byte_shiftRight_one_eq_ofNat, ← shiftedOutRight_eq]
    rfl
  · rw [← byte_shiftLeft_one_eq_ofNat, ← shiftedOutLeft_eq]
    rfl

/-- Settles O44: the draw is the one the host passed, or some byte when it passed none. -/
theorem randomByteIsMasked : Obligations.RandomByteIsMasked := by
  unfold Obligations.RandomByteIsMasked
  refine ⟨fun w h => decode_TC (fieldT_of_mask 0xC#4 rfl h), fun x nn s => ⟨fun r => ?_, ?_⟩⟩
  · exact exec_rndVxByte_writes x nn { s with draw := some r }
  · obtain ⟨t, ht, heq⟩ := exec_rndVxByte_writes x nn s
    exact ⟨t, ht, s.random, heq⟩

end Sys2Proof

/-! # Index register and memory (O45 to O49)

FX33, FX55 and FX65 make one check of a block that begins at `I`: each answers its transfer when the block ends inside
memory and the address fault when it does not. What the two stores leave in memory follows from the reads of a written
block, and what FX65 leaves in the registers from the reads of a written range of registers. -/

namespace Sys2Proof

open Machine

section
variable {s : State} {x k : Reg}

/-! ### The check of the block at `I` (20_memory.md R51) -/

/-- A block of `n + 1` bytes at `I` passes the check exactly when its last address is inside memory. -/
theorem inRange_indexed_iff {n : Nat} : inRange (indexed s 0) (n + 1) = true ↔ s.I.toNat + n ≤ 0xFFF := by
  rw [inRange_iff, indexed]
  omega

theorem exec_ldBVx_stores (h : s.I.toNat + 2 ≤ 0xFFF) :
    exec (.ldBVx x) s = .next (s.storeBytes s.I.toNat (decimalDigits (s.getV x))).advance :=
  if_pos (inRange_indexed_iff.mpr h)

theorem exec_ldBVx_raises (h : 0xFFF < s.I.toNat + 2) :
    exec (.ldBVx x) s = .next (s.raiseAddress (.ldBVx x) s.I.toNat) :=
  if_neg (mt inRange_indexed_iff.mp h.not_ge)

theorem exec_ldMemIVx_stores (h : s.I.toNat + x.val ≤ 0xFFF) :
    exec (.ldMemIVx x) s = .next (s.storeBytes s.I.toNat (s.getVUpTo x)).advance :=
  if_pos (inRange_indexed_iff.mpr h)

theorem exec_ldMemIVx_raises (h : 0xFFF < s.I.toNat + x.val) :
    exec (.ldMemIVx x) s = .next (s.raiseAddress (.ldMemIVx x) s.I.toNat) :=
  if_neg (mt inRange_indexed_iff.mp h.not_ge)

theorem exec_ldVxMemI_loads (h : s.I.toNat + x.val ≤ 0xFFF) :
    exec (.ldVxMemI x) s = .next (s.setVUpTo x fun k => Memory.read s.mem (s.I.toNat + k)).advance :=
  if_pos (inRange_indexed_iff.mpr h)

theorem exec_ldVxMemI_raises (h : 0xFFF < s.I.toNat + x.val) :
    exec (.ldVxMemI x) s = .next (s.raiseAddress (.ldVxMemI x) s.I.toNat) :=
  if_neg (mt inRange_indexed_iff.mp h.not_ge)

/-! ### What the transfers leave -/

/-- FX33 leaves digit `j` at `I + j` (44_index_memory.md R153). -/
theorem read_storeBytes_decimalDigits (hw : Memory.wf s.mem = true) (h : s.I.toNat + 2 ≤ 0xFFF) {j : Nat} (hj : j < 3)
    (v : Byte) : Memory.read (s.storeBytes s.I.toNat (decimalDigits v)).mem (s.I.toNat + j) = (decimalDigits v)[j] :=
  Memory.read_writeBlock_inside _ hw (by rw [decimalDigits_length]; omega) hj

/-- FX55 leaves `V[k]` at `I + k` (44_index_memory.md R154). -/
theorem read_storeBytes_getVUpTo (hw : Memory.wf s.mem = true) (h : s.I.toNat + x.val ≤ 0xFFF) (hk : k ≤ x) :
    Memory.read (s.storeBytes s.I.toNat (s.getVUpTo x)).mem (s.I.toNat + k.val) = s.V[k] := by
  have hlen : k.val < (s.getVUpTo x).length := by rw [getVUpTo_length]; exact Nat.lt_succ_of_le hk
  exact (Memory.read_writeBlock_inside _ hw (by rw [getVUpTo_length]; omega) hlen).trans
    (getVUpTo_getElem s x k.val hlen)

/-- FX65 leaves byte `k` of the block in `V[k]` (44_index_memory.md R155). -/
theorem setVUpTo_advance_V_of_le (f : Nat → Byte) (hk : k ≤ x) : (s.setVUpTo x f).advance.V[k] = f k :=
  (getV_setVUpTo s x k f).trans (if_pos hk)

theorem setVUpTo_advance_V_of_lt (f : Nat → Byte) (hk : x < k) : (s.setVUpTo x f).advance.V[k] = s.V[k] :=
  (getV_setVUpTo s x k f).trans (if_neg hk.not_ge)

/-- FX65 changes the registers and `pc` alone. -/
theorem setVUpTo_advance_eq (f : Nat → Byte) :
    (s.setVUpTo x f).advance = { s with V := (s.setVUpTo x f).advance.V, pc := s.pc + 2 } := by
  simp [State.setPc]

/-! ### I + V[X] (44_index_memory.md R151) -/

theorem word_add_zextByte_eq_ofNat (v : Word) (b : Byte) :
    v + zextByte b = BitVec.ofNat 16 ((v.toNat + b.toNat) % 65536) :=
  BitVec.eq_of_toNat_eq (by simp [BitVec.toNat_add])

end

/-- Settles O46: inside memory FX33 stores the block of the three digits, outside it raises. -/
theorem storeDecimalDigits : Obligations.StoreDecimalDigits := by
  unfold Obligations.StoreDecimalDigits
  refine ⟨fun w h => (fieldNN_of_mask 0xF#4 0x33#8 rfl h).elim decode_ldBVx,
    fun x s => ⟨fun hw h => ⟨_, exec_ldBVx_stores h, ?_, rfl, rfl⟩, exec_ldBVx_raises⟩⟩
  rintro _ rfl
  have digit {j : Nat} (hj : j < 3) := read_storeBytes_decimalDigits hw h hj (s.getV x)
  exact ⟨digit (j := 0) (by decide), digit (j := 1) (by decide), digit (j := 2) (by decide),
    fun b hb => Memory.read_writeBlock_outside _ hb⟩

/-- Settles O47: inside memory FX55 stores the block of the registers up to `V[X]`, outside it raises. -/
theorem storeRegisterBlock : Obligations.StoreRegisterBlock := by
  unfold Obligations.StoreRegisterBlock
  refine ⟨fun w h => (fieldNN_of_mask 0xF#4 0x55#8 rfl h).elim decode_ldMemIVx,
    fun x s => ⟨fun hw h => ⟨_, exec_ldMemIVx_stores h, ?_, rfl, rfl⟩, exec_ldMemIVx_raises⟩⟩
  rintro _ rfl
  refine ⟨fun k hk => read_storeBytes_getVUpTo hw h hk, fun b hb => Memory.read_writeBlock_outside _ ?_⟩
  rwa [getVUpTo_length]

/-- Settles O48: inside memory FX65 writes the registers up to `V[X]` alone, outside it raises. -/
theorem loadRegisterBlock : Obligations.LoadRegisterBlock := by
  unfold Obligations.LoadRegisterBlock
  refine ⟨fun w h => (fieldNN_of_mask 0xF#4 0x65#8 rfl h).elim decode_ldVxMemI,
    fun x s => ⟨fun h => ⟨_, exec_ldVxMemI_loads h, ?_, ?_, ?_⟩, exec_ldVxMemI_raises⟩⟩
  · exact fun k => setVUpTo_advance_V_of_le _
  · exact fun k => setVUpTo_advance_V_of_lt _
  · exact setVUpTo_advance_eq _

/-- Settles O49: FX65 reads at `I + k` the byte that FX55 left there, which is `V[k]`. -/
theorem storeThenLoadRoundTrip : Obligations.StoreThenLoadRoundTrip := by
  unfold Obligations.StoreThenLoadRoundTrip
  intro x s t s' hw h ht hI hbytes
  obtain rfl := Host.Outcome.next.inj ((exec_ldMemIVx_stores h).symm.trans ht)
  refine ⟨_, exec_ldVxMemI_loads (by rwa [hI]), fun k hk => ?_⟩
  calc _ = Memory.read s'.mem (s'.I.toNat + k.val) := setVUpTo_advance_V_of_le _ hk
    _ = Memory.read (s.storeBytes s.I.toNat (s.getVUpTo x)).mem (s.I.toNat + k.val) := by rw [hI]; exact hbytes k hk
    _ = s.V[k] := read_storeBytes_getVUpTo hw h hk

/-- Settles O45: the three write `I` and advance `pc`, with the new `I` read as a number. -/
theorem indexRegisterWrites : Obligations.IndexRegisterWrites := by
  unfold Obligations.IndexRegisterWrites
  refine ⟨fun w h => decode_TA (fieldT_of_mask 0xA#4 rfl h),
    fun w h => (fieldNN_of_mask 0xF#4 0x1E#8 rfl h).elim decode_addIVx,
    fun w h => (fieldNN_of_mask 0xF#4 0x29#8 rfl h).elim decode_ldFVx, fun nnn x s => ⟨?_, ?_, rfl⟩⟩
  · rw [← zextAddr_eq_ofNat]
    rfl
  · rw [← word_add_zextByte_eq_ofNat]
    rfl

end Sys2Proof

/-! # Keypad and timers (O50 to O52)

SKP and SKNP skip or raise by the value of `V[X]`; FX0A stores or waits by the keypad. Which of the two an instruction
does is its inversion lemma read forwards, as every instruction answers. -/

namespace Sys2Proof

open Machine

section
variable {s : State} {x : Reg}

/-! ### SKP and SKNP (45_keypad_timer.md R160 to R162) -/

theorem exec_skpVx_skips {k : Reg} (hk : s.V[x].toNat = k.val) :
    exec (.skpVx x) s = .next (s.skipIf s.key[k]) := by
  obtain ⟨t, ht⟩ := exec_answers (.skpVx x) s
  rcases exec_skpVx_inv ht with ⟨hout, _⟩ | ⟨j, hj, rfl⟩
  · exact absurd (hout.trans_eq hk) (by omega)
  · obtain rfl : j = k := Fin.ext (hj.symm.trans hk)
    exact ht

theorem exec_skpVx_raises (h : 0xF < s.V[x].toNat) :
    exec (.skpVx x) s = .next (s.raiseKey (.skpVx x) s.V[x]) := by
  obtain ⟨t, ht⟩ := exec_answers (.skpVx x) s
  rcases exec_skpVx_inv ht with ⟨_, rfl⟩ | ⟨j, hj, _⟩
  · exact ht
  · exact absurd (h.trans_eq hj) (by omega)

theorem exec_sknpVx_skips {k : Reg} (hk : s.V[x].toNat = k.val) :
    exec (.sknpVx x) s = .next (s.skipIf (!s.key[k])) := by
  obtain ⟨t, ht⟩ := exec_answers (.sknpVx x) s
  rcases exec_sknpVx_inv ht with ⟨hout, _⟩ | ⟨j, hj, rfl⟩
  · exact absurd (hout.trans_eq hk) (by omega)
  · obtain rfl : j = k := Fin.ext (hj.symm.trans hk)
    exact ht

theorem exec_sknpVx_raises (h : 0xF < s.V[x].toNat) :
    exec (.sknpVx x) s = .next (s.raiseKey (.sknpVx x) s.V[x]) := by
  obtain ⟨t, ht⟩ := exec_answers (.sknpVx x) s
  rcases exec_sknpVx_inv ht with ⟨_, rfl⟩ | ⟨j, hj, _⟩
  · exact ht
  · exact absurd (h.trans_eq hj) (by omega)

/-! ### FX0A (45_keypad_timer.md R163) -/

theorem exec_ldVxK_stores {k : Reg} (hk : s.key[k] = true) (hl : ∀ j : Reg, j < k → s.key[j] = false) :
    exec (.ldVxK x) s = .next (s.setV x (BitVec.ofNat 8 k.val)).advance := by
  obtain ⟨t, ht⟩ := exec_answers (.ldVxK x) s
  rcases exec_ldVxK_inv ht with ⟨hno, _⟩ | ⟨j, hj, _, rfl⟩
  · exact absurd hk (by simp [hno k])
  · obtain rfl : j = k := Option.some.inj (hj.symm.trans (leastKey_of_least hk hl))
    exact ht

theorem exec_ldVxK_waits (hno : ∀ k : Reg, s.key[k] = false) : exec (.ldVxK x) s = .next s := by
  obtain ⟨t, ht⟩ := exec_answers (.ldVxK x) s
  rcases exec_ldVxK_inv ht with ⟨_, rfl⟩ | ⟨k, _, hk, _⟩
  · exact ht
  · exact absurd hk (by simp [hno k])

theorem reportOf_ldVxK_waiting {w : Opcode} (hno : ∀ k : Reg, s.key[k] = false) :
    reportOf (.ldVxK x) w s = .waiting := by
  simp [reportOf, leastKey_eq_none.mpr hno]

end

/-- Settles O50: a value up to 0xF names the key that decides the skip, a value above it is the recorded address. -/
theorem skipsOnKey : Obligations.SkipsOnKey := by
  unfold Obligations.SkipsOnKey
  refine ⟨fun w h => (fieldNN_of_mask 0xE#4 0x9E#8 rfl h).elim decode_skpVx,
    fun w h => (fieldNN_of_mask 0xE#4 0xA1#8 rfl h).elim decode_sknpVx,
    fun x s => ⟨fun k hk => ⟨?_, ?_⟩, fun h => ?_⟩⟩
  · exact (exec_skpVx_skips hk).trans (congrArg Host.Outcome.next (skipIf_of_iff Iff.rfl))
  · exact (exec_sknpVx_skips hk).trans (congrArg Host.Outcome.next (skipIf_of_iff (by simp)))
  · rw [← zextByte_eq_ofNat]
    exact ⟨exec_skpVx_raises h, exec_sknpVx_raises h⟩

/-- Settles O51: with a key pressed FX0A stores the least one and completes, with none pressed it waits. -/
theorem waitForKeyStoresLeastPressed : Obligations.WaitForKeyStoresLeastPressed := by
  unfold Obligations.WaitForKeyStoresLeastPressed
  refine ⟨fun w h => (fieldNN_of_mask 0xF#4 0x0A#8 rfl h).elim decode_ldVxK,
    fun x s => ⟨fun k hk hl => ?_, fun hno => ?_⟩⟩
  · have hdone : Completes (.ldVxK x) s := ⟨nofun, fun _ => ⟨k, hk⟩⟩
    exact ⟨exec_ldVxK_stores hk hl, fun w => reportOf_eq_ok hdone⟩
  · exact ⟨exec_ldVxK_waits hno, fun w => reportOf_ldVxK_waiting hno⟩

/-- Settles O52: each of the three is one copy and the advance of `pc`, and FX18 leaves `V[X]` in `sound`. -/
theorem timerCopies : Obligations.TimerCopies := by
  unfold Obligations.TimerCopies
  exact ⟨fun w h => (fieldNN_of_mask 0xF#4 0x07#8 rfl h).elim decode_ldVxDT,
    fun w h => (fieldNN_of_mask 0xF#4 0x15#8 rfl h).elim decode_ldDTVx,
    fun w h => (fieldNN_of_mask 0xF#4 0x18#8 rfl h).elim decode_ldSTVx,
    fun x s => ⟨rfl, rfl, _, rfl, rfl, decide_eq_true_iff⟩⟩

end Sys2Proof

/-! # Fatal conditions, and the host's operations on a halted core (O3, O4, O6, O17, O18, O21, O22)

An instruction that checks something either raises the one condition of its row or ends not halted: `RaisesIff` joins
the two, and the taxonomy of 60_exceptions.md R171 is one use of it per row. What a step of a halted core does is
`step_eq_halted`; each operation of the host is an equation of `perform`. -/

namespace Sys2Proof

open Machine

section
variable {i : Instr} {s t : State} {p : Prop} {c : FatalCode} {a : Word}

/-! ### Which condition an instruction raises (60_exceptions.md R171) -/

/-- `t` is halted exactly when `p` holds, and then by the condition `c` with the address `a`. -/
def RaisesIff (p : Prop) (c : FatalCode) (a : Word) (t : State) : Prop :=
  (t.halted = true ↔ p) ∧ (t.halted = true → t.fault.code = c ∧ t.fault.addr = a)

/-- An instruction that raises under `p`, and otherwise answers a state that is not halted, raises exactly under `p`. -/
theorem raisesIff_of_exec (h : exec i s = .next t) (hraise : p → exec i s = .next (s.raiseIn i c a))
    (hrun : ¬p → ∃ u, exec i s = .next u ∧ u.halted = false) : RaisesIff p c a t := by
  by_cases hp : p
  · obtain rfl := Host.Outcome.next.inj (h.symm.trans (hraise hp))
    exact ⟨iff_of_true rfl hp, fun _ => ⟨rfl, rfl⟩⟩
  · obtain ⟨u, hu, hh⟩ := hrun hp
    obtain rfl := Host.Outcome.next.inj (h.symm.trans hu)
    exact ⟨iff_of_false (by simp [hh]) hp, fun ht => absurd ht (by simp [hh])⟩

/-- The recorded address as a number. -/
theorem RaisesIff.addr_toNat {n : Nat} (h : RaisesIff p c a t) (ha : a.toNat = n) :
    (t.halted = true ↔ p) ∧ (t.halted = true → t.fault.code = c ∧ t.fault.addr.toNat = n) :=
  ⟨h.1, fun ht => (h.2 ht).imp_right fun e => by rw [e, ha]⟩

theorem skipIf_halted (s : State) (b : Bool) : (s.skipIf b).halted = s.halted := (effect_skip s b).halted

theorem exec_callAddr_raisesIff {nnn : Addr12} (hh : s.halted = false) (h : exec (.callAddr nnn) s = .next t) :
    RaisesIff (s.sp = 16) .stackOverflow 0 t := by
  refine raisesIff_of_exec h (exec_callAddr_overflow nnn) fun hne => ?_
  obtain ⟨k, hk⟩ := Fin.exists_castSucc_eq.mpr hne
  exact ⟨_, exec_callAddr_pushes nnn k hk.symm, hh⟩

theorem exec_ret_raisesIff (hh : s.halted = false) (h : exec .ret s = .next t) :
    RaisesIff (s.sp = 0) .stackUnderflow 0 t := by
  refine raisesIff_of_exec h exec_ret_underflow fun hne => ?_
  obtain ⟨k, hk⟩ := Fin.exists_succ_eq.mpr hne
  exact ⟨_, exec_ret_pops k (congrArg Fin.val hk.symm), hh⟩

theorem exec_drwVxVyNibble_raisesIff {x y : Reg} {n : Nibble} (hh : s.halted = false)
    (h : exec (.drwVxVyNibble x y n) s = .next t) :
    RaisesIff (1 ≤ n.toNat ∧ 0xFFF < s.I.toNat + n.toNat - 1) .addressOutOfRange (firstOutOfRange s.I.toNat) t := by
  refine raisesIff_of_exec h (fun hp => exec_drwVxVyNibble_raises (by omega) hp.2) fun hp => ?_
  obtain ⟨u, hu, hdrawn⟩ := exec_drwVxVyNibble_drawn (s := s) (x := x) (y := y) (n := n) (by omega)
  exact ⟨u, hu, (congrArg State.halted hdrawn.frame).trans hh⟩

theorem exec_ldBVx_raisesIff {x : Reg} (hh : s.halted = false) (h : exec (.ldBVx x) s = .next t) :
    RaisesIff (0xFFF < s.I.toNat + 2) .addressOutOfRange (firstOutOfRange s.I.toNat) t :=
  raisesIff_of_exec h exec_ldBVx_raises fun hp => ⟨_, exec_ldBVx_stores (not_lt.mp hp), hh⟩

theorem exec_ldMemIVx_raisesIff {x : Reg} (hh : s.halted = false) (h : exec (.ldMemIVx x) s = .next t) :
    RaisesIff (0xFFF < s.I.toNat + x.val) .addressOutOfRange (firstOutOfRange s.I.toNat) t :=
  raisesIff_of_exec h exec_ldMemIVx_raises fun hp => ⟨_, exec_ldMemIVx_stores (not_lt.mp hp), hh⟩

theorem exec_ldVxMemI_raisesIff {x : Reg} (hh : s.halted = false) (h : exec (.ldVxMemI x) s = .next t) :
    RaisesIff (0xFFF < s.I.toNat + x.val) .addressOutOfRange (firstOutOfRange s.I.toNat) t :=
  raisesIff_of_exec h exec_ldVxMemI_raises fun hp => ⟨_, exec_ldVxMemI_loads (not_lt.mp hp), hh⟩

theorem exec_skpVx_raisesIff {x : Reg} (hh : s.halted = false) (h : exec (.skpVx x) s = .next t) :
    RaisesIff (0xF < s.V[x].toNat) .keyIndexOutOfRange (zextByte s.V[x]) t :=
  raisesIff_of_exec h exec_skpVx_raises fun hp =>
    ⟨_, exec_skpVx_skips (k := ⟨s.V[x].toNat, by omega⟩) rfl, (skipIf_halted s _).trans hh⟩

theorem exec_sknpVx_raisesIff {x : Reg} (hh : s.halted = false) (h : exec (.sknpVx x) s = .next t) :
    RaisesIff (0xF < s.V[x].toNat) .keyIndexOutOfRange (zextByte s.V[x]) t :=
  raisesIff_of_exec h exec_sknpVx_raises fun hp =>
    ⟨_, exec_sknpVx_skips (k := ⟨s.V[x].toNat, by omega⟩) rfl, (skipIf_halted s _).trans hh⟩

theorem exec_ldVxK_halted {x : Reg} (h : exec (.ldVxK x) s = .next t) : t.halted = s.halted := by
  rcases exec_ldVxK_inv h with ⟨_, rfl⟩ | ⟨_, _, _, rfl⟩ <;> rfl

/-! ### What a step that raises records (60_exceptions.md R172 to R174) -/

/-- A step that halts is a fetch fault, or a raise with the word it fetched. -/
theorem raised_of_step_halted (hh : s.halted = false) (h : step s = .next t) (ht : t.halted = true) :
    (s.fetch = none ∧ t = s.raiseFetch) ∨
      ∃ w c a, s.fetch = some w ∧ t = s.raiseFatal (w.setWidth 17) c a := by
  rcases step_cases h with ⟨hs, _⟩ | ⟨_, hf, rfl⟩ | ⟨w, i, _, hf, hd, he⟩ | ⟨_, _, _, _, _, rfl⟩
  · exact absurd hs (by simp [hh])
  · exact .inl ⟨hf, rfl⟩
  · rcases exec_cases he with e | ⟨c, a, _, rfl⟩
    · exact absurd (e.halted.symm.trans ht) (by simp [hh])
    · exact .inr ⟨w, c, a, hf, by rw [(encode_and_wellFormed_of_decode hd).1]⟩
  · exact absurd (hh.symm.trans ht) (by decide)

/-! ### The host's operations -/

variable (font : Vector Byte 80)

theorem countDown_eq (v : Byte) : countDown v = if v.toNat > 0 then BitVec.ofNat 8 (v.toNat - 1) else v := by
  unfold countDown
  split
  · bv_omega
  · rfl

theorem perform_setKey (k : Fin 16) (b : Bool) :
    perform font (.setKey k.val b) (some s) = .next (setKey k b s, .nothing) := dif_pos k.isLt

theorem perform_setKey_invalid {k : Nat} (hk : 15 < k) (b : Bool) :
    perform font (.setKey k b) (some s) = .refused (.invalidKey k) := dif_neg (by omega)

/-- On a halted core `step(r)` answers the stored record, and takes back the draw it put in (60_exceptions.md R175). -/
theorem perform_step_of_halted (hh : s.halted = true) (r : Byte) :
    perform font (.step r) (some s) = .next (s.withDraw none, .stepped (.fatal s.fault)) := by
  have hstep : step (s.withDraw (some r)) = .next (s.withDraw (some r)) := step_eq_halted hh
  rw [perform_step hstep, resultOf_of_halted (by exact hh)]
  rfl

theorem readFramebuffer_length (s : State) : (readFramebuffer s).length = 2048 := by
  simp [readFramebuffer]

/-- Pixel `(x, y)` is entry `y * 64 + x`, in the row-major order of 10_state.md R31. -/
theorem readFramebuffer_getElem? (s : State) (x : Fin 64) (y : Fin 32) :
    (readFramebuffer s)[y.val * 64 + x.val]? = some (pixel s.fb x y) := by
  have hx : wrapX (y.val * 64 + x.val) = x := Fin.ext (by simp only [wrapX]; omega)
  have hy : wrapY ((y.val * 64 + x.val) / 64) = y := Fin.ext (by simp only [wrapY]; omega)
  have hlt : y.val * 64 + x.val < 2048 := by omega
  simp [readFramebuffer, hlt, hx, hy]

theorem readFramebuffer_congr (h : t.fb = s.fb) : readFramebuffer t = readFramebuffer s := by
  rw [readFramebuffer, h, readFramebuffer]

/-! ### Which operations keep `halted` and the record (60_exceptions.md R177) -/

theorem load_keeps_halted_and_fault (image : List Byte) (s : State) :
    (load image s).2.halted = s.halted ∧ (load image s).2.fault = s.fault := by
  unfold load
  split <;> exact ⟨rfl, rfl⟩

theorem perform_keeps_halted_and_fault {font : Vector Byte 80} {op : HostOp} {ans : HostAnswer} (hh : s.halted = true)
    (hop : op ≠ .init) (h : perform font op (some s) = .next (t, ans)) : t.halted = s.halted ∧ t.fault = s.fault := by
  cases op with
  | init => exact absurd rfl hop
  | load image => cases h; exact load_keeps_halted_and_fault image s
  | step r => cases (perform_step_of_halted font hh r).symm.trans h; exact ⟨rfl, rfl⟩
  | setKey k b =>
    by_cases hk : 15 < k
    · cases (perform_setKey_invalid font hk b).symm.trans h
    · cases (perform_setKey font ⟨k, by omega⟩ b).symm.trans h; exact ⟨rfl, rfl⟩
  | _ => cases h; exact ⟨rfl, rfl⟩

end

/-- Settles O21: a fetch outside memory raises, an unknown opcode is skipped, and the rest is one case per row. -/
theorem fatalConditionsAreExactlyThese : Obligations.FatalConditionsAreExactlyThese := by
  unfold Obligations.FatalConditionsAreExactlyThese
  refine ⟨rfl, rfl, rfl, rfl, rfl, fun s t hh hf h => ?_, fun s => fetch_eq_none, fun s t w g hh hf hd h => ?_,
    fun i s t hh h => ?_⟩
  · obtain rfl := eq_of_step h (step_eq_raiseFetch hh hf)
    exact ⟨rfl, rfl, firstOutOfRange_toNat s.pc.isLt⟩
  · obtain rfl := eq_of_step h (step_eq_skip hh hf hd)
    exact hh
  · have haddr : (firstOutOfRange s.I.toNat).toNat = max s.I.toNat 0x1000 := firstOutOfRange_toNat s.I.isLt
    cases i with
    | callAddr nnn => exact exec_callAddr_raisesIff hh h
    | ret => exact exec_ret_raisesIff hh h
    | drwVxVyNibble x y n => exact (exec_drwVxVyNibble_raisesIff hh h).addr_toNat haddr
    | ldBVx x => exact (exec_ldBVx_raisesIff hh h).addr_toNat haddr
    | ldMemIVx x => exact (exec_ldMemIVx_raisesIff hh h).addr_toNat haddr
    | ldVxMemI x => exact (exec_ldVxMemI_raisesIff hh h).addr_toNat haddr
    | skpVx x => exact (exec_skpVx_raisesIff hh h).addr_toNat (zextByte_toNat _)
    | sknpVx x => exact (exec_sknpVx_raisesIff hh h).addr_toNat (zextByte_toNat _)
    | ldVxK x => exact (exec_ldVxK_halted h).trans hh
    | seVxByte x nn => cases h; exact (skipIf_halted s _).trans hh
    | sneVxByte x nn => cases h; exact (skipIf_halted s _).trans hh
    | seVxVy x y => cases h; exact (skipIf_halted s _).trans hh
    | sneVxVy x y => cases h; exact (skipIf_halted s _).trans hh
    | _ => cases h; exact hh

/-- Settles O22: the step is a fetch fault or a raise with the fetched word, and either keeps the rest of the state. -/
theorem fatalStepIsPrecise : Obligations.FatalStepIsPrecise := by
  unfold Obligations.FatalStepIsPrecise
  intro s t hh h ht
  rcases raised_of_step_halted hh h ht with ⟨hf, rfl⟩ | ⟨w, c, a, hf, rfl⟩
  · exact ⟨rfl, rfl, by simp [hf], fun _ => rfl⟩
  · refine ⟨rfl, rfl, fun w' hf' => ?_, by simp [hf]⟩
    obtain rfl : w = w' := Option.some.inj (hf.symm.trans hf')
    exact BitVec.toNat_setWidth_of_le (by decide)

/-- Settles O6: a halted step answers the same state, each operation but `initialize` keeps the two fields, and
`initialize` answers the reset ones. -/
theorem onlyInitialiseLeavesHalted : Obligations.OnlyInitialiseLeavesHalted := by
  unfold Obligations.OnlyInitialiseLeavesHalted
  refine fun s hh => ⟨fun t h => ?_, fun font op t ans h => ⟨fun hop => ?_, fun hop => ?_⟩⟩
  · obtain rfl := eq_of_step h (step_eq_halted hh)
    exact ⟨hh, rfl⟩
  · exact (perform_keeps_halted_and_fault hh hop h).imp_left (·.trans hh)
  · subst hop
    cases h
    exact ⟨rfl, rfl⟩

/-- Settles O3: `tick` is one count down of each timer. -/
theorem tickCountsDown : Obligations.TickCountsDown := by
  unfold Obligations.TickCountsDown
  intro font s
  rw [← countDown_eq, ← countDown_eq]
  rfl

/-- Settles O4: the call writes one entry of the keypad, and its check refuses a `k` above 15. -/
theorem setKeySetsOneKey : Obligations.SetKeySetsOneKey := by
  unfold Obligations.SetKeySetsOneKey
  exact fun font s b => ⟨fun k => perform_setKey font k b, fun k hk => perform_setKey_invalid font hk b⟩

/-- Settles O17: the step and `step(r)` of a halted core answer the stored record; the other operations do not look at
`halted`. -/
theorem haltedStepChangesNothing : Obligations.HaltedStepChangesNothing := by
  unfold Obligations.HaltedStepChangesNothing
  refine fun s hh => ⟨step_eq_halted hh, resultOf_of_halted hh, fun font => ⟨fun r => ?_, rfl, perform_setKey font,
    fun image => rfl, rfl, rfl, rfl, ?_⟩⟩
  · exact ⟨_, perform_step_of_halted font hh r, rfl⟩
  · rw [← hh]
    rfl

/-- Settles O18: each read gives its value by definition, and a step that ends halted keeps the framebuffer read. -/
theorem readOperationsChangeNothing : Obligations.ReadOperationsChangeNothing := by
  unfold Obligations.ReadOperationsChangeNothing
  refine fun font s => ⟨rfl, rfl, ⟨_, rfl, decide_eq_true_iff⟩, _, rfl, readFramebuffer_length s,
    readFramebuffer_getElem? s, fun t h ht => ?_⟩
  have hfb : t.fb = s.fb := by rw [step_eq_of_halted h ht]
  rw [← readFramebuffer_congr hfb]
  rfl

end Sys2Proof

/-! # Reset, `load`, the uninitialised core and the strict view (O1, O2, O5, O7, O26)

`initialize` is `State.reset` with FONT written over the reset contents, so every field but memory is a field of
`State.reset`, and memory is told by two reads: inside the font and outside it. `load` is one block write with a
length check. -/

namespace Sys2Proof

open Machine

section
variable {s t : State} (font : Vector Byte 80) (image : List Byte)

/-! ### What memory reads as after `initialize` (70_reset_and_hazards.md R200, R201) -/

theorem unlisted_font (k : Fin 80) : unlisted (0x050 + k.val) = Config.font[k] := by
  have hin : 0x050 ≤ 0x050 + k.val ∧ 0x050 + k.val < 0x0A0 := by omega
  simp [unlisted, hin]

theorem unlisted_outside_font {a : Nat} (h : a < 0x050 ∨ 0x0A0 ≤ a) : unlisted a = 0 := dif_neg (by omega)

theorem read_initialise_font (k : Fin 80) : Memory.read (initialise font).mem (0x050 + k.val) = font[k] := by
  have hlen : font.toList.length = 80 := font.length_toList
  exact (Memory.read_writeBlock_inside font.toList rfl (by omega) (by omega)).trans (Vector.getElem_toList _)

theorem read_initialise_outside_font {a : Nat} (h : a < 0x050 ∨ 0x0A0 ≤ a) :
    Memory.read (initialise font).mem a = 0 := by
  have hlen : font.toList.length = 80 := font.length_toList
  exact (Memory.read_writeBlock_outside font.toList (by omega)).trans (unlisted_outside_font h)

/-- With the default FONT every address reads as it does unlisted, and a canonical memory that does so is empty. -/
theorem initialise_default_font_mem : (initialise Config.font).mem = [] := by
  refine Memory.eq_of_read_eq (inv_initialise Config.font).memory rfl fun a => ?_
  change _ = unlisted a
  by_cases h : a < 0x050 ∨ 0x0A0 ≤ a
  · rw [read_initialise_outside_font _ h, unlisted_outside_font h]
  · obtain ⟨k, rfl⟩ : ∃ k : Fin 80, a = 0x050 + k.val := ⟨⟨a - 0x050, by omega⟩, by simp only; omega⟩
    rw [read_initialise_font, unlisted_font]

/-! ### `load` and the uninitialised core (70_reset_and_hazards.md R203, R206) -/

theorem load_eq_ok (s : State) (h : image.length ≤ 3584) : load image s = (.ok, s.storeBytes 0x200 image) :=
  if_neg (by omega)

theorem load_eq_oversize (s : State) (h : 3584 < image.length) : load image s = (.oversize, s) := if_pos h

theorem perform_init (core : Option State) : perform font .init core = .next (initialise font, .nothing) := by
  cases core <;> rfl

theorem perform_uninitialised {op : HostOp} (h : op ≠ .init) : perform font op none = .refused .uninitialised := by
  cases op with
  | init => exact absurd rfl h
  | _ => rfl

/-! ### The strict view (93_implementation_defined.md U5) -/

theorem strictStep_eq_fault (h : step s = .next t) (ht : t.halted = true) :
    strictStep s = .fault (.fatal t.fault) := by
  simp [strictStep, h, ht]

theorem strictStep_eq_next (h : step s = .next t) (ht : t.halted = false) : strictStep s = .next t := by
  simp [strictStep, h, ht]

/-- The step answers some state; the strict view answers that state or a fault. -/
theorem strictStep_eq_next_iff : strictStep s = .next t ↔ step s = .next t ∧ t.halted = false := by
  refine ⟨fun h => ?_, fun ⟨h, ht⟩ => strictStep_eq_next h ht⟩
  obtain ⟨u, hu⟩ := step_answers s
  cases hh : u.halted with
  | true => cases (strictStep_eq_fault hu hh).symm.trans h
  | false => cases (strictStep_eq_next hu hh).symm.trans h; exact ⟨hu, hh⟩

end

/-- Settles O1: memory by its two reads, every other field from `State.reset`. -/
theorem initialiseSetsEveryField : Obligations.InitialiseSetsEveryField := by
  unfold Obligations.InitialiseSetsEveryField
  exact fun font => ⟨perform_init font, read_initialise_font font, fun _ => read_initialise_outside_font font,
    fun x => Vector.getElem_replicate x.isLt, rfl, rfl, rfl, fun k => Vector.getElem_replicate k.isLt, rfl, rfl,
    pixel_clear, fun k => Vector.getElem_replicate k.isLt, rfl, rfl⟩

/-- Settles O5: an accepted image is one block write that ends at 0x1000 at the latest. -/
theorem loadCopiesImage : Obligations.LoadCopiesImage := by
  unfold Obligations.LoadCopiesImage
  refine fun s image hw => ⟨fun hlen => ⟨_, load_eq_ok image s hlen, fun k hk => ?_, fun b hb => ?_, rfl⟩,
    load_eq_oversize image s⟩
  · exact Memory.read_writeBlock_inside image hw (by omega) hk
  · exact Memory.read_writeBlock_outside image hb

/-- Settles O2: only memory could differ from `State.reset`, and it lists nothing. -/
theorem resetIsInitialiseWithDefaultFont : Obligations.ResetIsInitialiseWithDefaultFont := by
  unfold Obligations.ResetIsInitialiseWithDefaultFont
  refine ⟨?_, rfl, rfl, rfl⟩
  calc initialise Config.font = { State.reset with mem := (initialise Config.font).mem } := rfl
    _ = State.reset := by rw [initialise_default_font_mem]; rfl

/-- Settles O7: the one operation that does not need a state is `initialize`. -/
theorem uninitialisedCoreRefusesAllButInitialise : Obligations.UninitialisedCoreRefusesAllButInitialise := by
  unfold Obligations.UninitialisedCoreRefusesAllButInitialise
  exact fun font op => ⟨fun hop => hop ▸ perform_init font none, perform_uninitialised font⟩

/-- Settles O26: the step always answers a state, and the strict view turns exactly the halted one into a fault. -/
theorem strictStepIsStepThatDoesNotHalt : Obligations.StrictStepIsStepThatDoesNotHalt := by
  unfold Obligations.StrictStepIsStepThatDoesNotHalt
  exact fun s t => ⟨strictStep_eq_next_iff, strictStep_eq_fault⟩

end Sys2Proof
